-- ==== Sys2Proof/Word.lean ====
section
/-! DEFINITION. The word of the machine: one signed 64-bit integer (R4 WLEN, R10, R30). -/

namespace Sys2Proof

/-- A memory word, a queue element, the relative base, the instruction pointer: 64 bits, read as a
signed number through `BitVec.toInt` (00_scope.md R4, section 6.1). -/
abbrev Word := BitVec 64

end Sys2Proof
end

