-- ==== Sys2Proof/Machine/Flags.lean ====
section
/-! DEFINITION. The machine has no flags and no condition codes (10_state.md R15). What an instruction
computes is one ALU result (41_arithmetic.md R92): these, and nothing else, are computed. -/

namespace Sys2Proof.Machine

/-- `wrap64(v)` (00_scope.md section 6.1): the word congruent to `v` modulo 2^64. -/
def wrap64 (v : Int) : Word := BitVec.ofInt 64 v

/-- Add (R92): the exact sum, wrapped. Wrapping is the spec's decision D1 (log entry 7). -/
def aluAdd (a b : Word) : Word := wrap64 (a.toInt + b.toInt)

/-- Multiply (R92): the exact product, wrapped (log entry 7). -/
def aluMul (a b : Word) : Word := wrap64 (a.toInt * b.toInt)

/-- Signed less-than (R92, R105): 1 or 0. -/
def aluLt (a b : Word) : Word := if a.toInt < b.toInt then 1 else 0

/-- Equality of the full words (R92, R106): 1 or 0. -/
def aluEq (a b : Word) : Word := if a.toInt = b.toInt then 1 else 0

/-- The test against zero of the jumps (R92, R100): any value but 0 is true. -/
def testTrue (a : Word) : Bool := decide (a.toInt ≠ 0)

end Sys2Proof.Machine
end

