-- ==== Sys2Proof/Syntax.lean ====
section
/-! DEFINITION. The ten instructions (30_encoding.md R54), each with the addressing modes of its
operands in operand order. The operand WORDS are not part of the instruction: the step fetches each
one from memory while it resolves that operand (R65, R75, R78). -/

namespace Sys2Proof

/-- The three addressing modes (R81): mode digits 0, 1 and 2. -/
inductive Mode where
  | position
  | immediate
  | relative
  deriving DecidableEq, Repr

/-- The instruction set: one constructor per row of spec/opcode_table.json, in the table's order. -/
inductive Instr where
  /-- `ADD a, b, dest` (opcode 1, R90). -/
  | add (a b dest : Mode)
  /-- `MUL a, b, dest` (opcode 2, R91). -/
  | mul (a b dest : Mode)
  /-- `IN dest` (opcode 3, R95). -/
  | inp (dest : Mode)
  /-- `OUT a` (opcode 4, R96). -/
  | out (a : Mode)
  /-- `JT cond, target` (opcode 5, R100). -/
  | jt (cond target : Mode)
  /-- `JF cond, target` (opcode 6, R101). -/
  | jf (cond target : Mode)
  /-- `LT a, b, dest` (opcode 7, R105). -/
  | lt (a b dest : Mode)
  /-- `EQ a, b, dest` (opcode 8, R106). -/
  | eq (a b dest : Mode)
  /-- `ARB a` (opcode 9, R110). -/
  | arb (a : Mode)
  /-- `HLT` (opcode 99, R111). -/
  | hlt
  deriving DecidableEq, Repr

end Sys2Proof
end

