-- ==== Sys2Proof/WellFormed.lean ====
section
/-! DEFINITION. Which instruction terms stand for a legal encoding. -/

namespace Sys2Proof

/-- R55, R59: a destination operand uses mode 0 or 2, never 1. -/
def Mode.isDest : Mode → Bool
  | .position => true
  | .immediate => false
  | .relative => true

/-- R55: every source mode is legal, and a destination must not be immediate. -/
def Instr.wellFormed : Instr → Bool
  | .add _ _ dest => dest.isDest
  | .mul _ _ dest => dest.isDest
  | .inp dest => dest.isDest
  | .out _ => true
  | .jt _ _ => true
  | .jf _ _ => true
  | .lt _ _ dest => dest.isDest
  | .eq _ _ dest => dest.isDest
  | .arb _ => true
  | .hlt => true

end Sys2Proof
end

