-- ==== Sys2Proof/Decode.lean ====
section
/-! DEFINITION. The decimal encoding (30_encoding.md): the decoder, total on every word and rejecting
by name, and after it the encoder, written from the same table (R50, R54). -/

namespace Sys2Proof

/-- Why a word is no instruction (R61): the two decode faults of R131 and R133. -/
inductive DecodeError where
  /-- R53, R57: a negative word, or low two digits that are no opcode. -/
  | unknownOpcode
  /-- R58, R59: an examined mode digit above 2, or 1 on a destination. -/
  | invalidMode
  deriving DecidableEq, Repr

/-- `op = w mod 100` (R50), for a non-negative word given as a natural number. -/
def opcodeOf (n : Nat) : Nat := n % 100

/-- `m_k = (w div 10^(k+1)) mod 10` (R50): the mode digit of operand `k`, from 1. -/
def modeDigit (n k : Nat) : Nat := n / 10 ^ (k + 1) % 10

/-- R76: mode digit 0 position, 1 immediate, 2 relative; no other digit is a mode. -/
def modeOfDigit : Nat → Option Mode
  | 0 => some .position
  | 1 => some .immediate
  | 2 => some .relative
  | _ => none

/-- R58: operand `k` as a source. -/
def decodeSrc (n k : Nat) : Except DecodeError Mode :=
  match modeOfDigit (modeDigit n k) with
  | some m => .ok m
  | none => .error .invalidMode

/-- R58, R59: operand `k` as a destination. -/
def decodeDst (n k : Nat) : Except DecodeError Mode :=
  match modeOfDigit (modeDigit n k) with
  | some m => if m.isDest then .ok m else .error .invalidMode
  | none => .error .invalidMode

/-- Format F1 with a source (R54): output, adjust-relative-base. -/
def decodeS (mk : Mode → Instr) (n : Nat) : Except DecodeError Instr :=
  (decodeSrc n 1).bind fun a => .ok (mk a)

/-- Format F1 with a destination (R54): input. -/
def decodeD (mk : Mode → Instr) (n : Nat) : Except DecodeError Instr :=
  (decodeDst n 1).bind fun d => .ok (mk d)

/-- Format F2 (R54): the jumps. -/
def decodeSS (mk : Mode → Mode → Instr) (n : Nat) : Except DecodeError Instr :=
  (decodeSrc n 1).bind fun a => (decodeSrc n 2).bind fun b => .ok (mk a b)

/-- Format F3 (R54): add, multiply, less-than, equals. -/
def decodeSSD (mk : Mode → Mode → Mode → Instr) (n : Nat) : Except DecodeError Instr :=
  (decodeSrc n 1).bind fun a => (decodeSrc n 2).bind fun b => (decodeDst n 3).bind fun d => .ok (mk a b d)

/-- The opcode map of R54, for a non-negative word. -/
def decodeNat (n : Nat) : Except DecodeError Instr :=
  match opcodeOf n with
  | 1 => decodeSSD .add n
  | 2 => decodeSSD .mul n
  | 3 => decodeD .inp n
  | 4 => decodeS .out n
  | 5 => decodeSS .jt n
  | 6 => decodeSS .jf n
  | 7 => decodeSSD .lt n
  | 8 => decodeSSD .eq n
  | 9 => decodeS .arb n
  | 99 => .ok .hlt
  | _ => .error .unknownOpcode

/-- `Decode(w)` (R61, R72): a pure function of the instruction word. Every negative word is
`UnknownOpcode` (R53). -/
def decode (w : Word) : Except DecodeError Instr :=
  if w.toInt < 0 then .error .unknownOpcode else decodeNat w.toNat

/-- The mode digit of a mode (R76). -/
def Mode.digit : Mode → Nat
  | .position => 0
  | .immediate => 1
  | .relative => 2

/-- The opcode column of R54. -/
def Instr.opcode : Instr → Nat
  | .add _ _ _ => 1
  | .mul _ _ _ => 2
  | .inp _ => 3
  | .out _ => 4
  | .jt _ _ => 5
  | .jf _ _ => 6
  | .lt _ _ _ => 7
  | .eq _ _ _ => 8
  | .arb _ => 9
  | .hlt => 99

/-- The modes of the operands, in operand order (R54). -/
def Instr.modes : Instr → List Mode
  | .add a b d => [a, b, d]
  | .mul a b d => [a, b, d]
  | .inp d => [d]
  | .out a => [a]
  | .jt c t => [c, t]
  | .jf c t => [c, t]
  | .lt a b d => [a, b, d]
  | .eq a b d => [a, b, d]
  | .arb a => [a]
  | .hlt => []

/-- The width column of R54: the instruction word and its operand words (R62). -/
def Instr.width (i : Instr) : Nat := i.modes.length + 1

/-- The mode field of R50: the mode of operand 1 is the units digit, of operand 2 the tens digit, … -/
def modeField : List Mode → Nat
  | [] => 0
  | m :: ms => m.digit + 10 * modeField ms

/-- R63: `w = op + 100*m_1 + 1000*m_2 + 10000*m_3`, as a natural number. -/
def encodeNat (i : Instr) : Nat := i.opcode + 100 * modeField i.modes

/-- The instruction word of `i` with no ignored digits (R50, R63). -/
def encode (i : Instr) : Word := BitVec.ofNat 64 (encodeNat i)

/-- One line of the assembly of R63, labels already replaced by their addresses: an instruction with
its operand words, or a `.word` line. -/
inductive AsmLine where
  | instr (i : Instr) (operands : List Word)
  | data (words : List Word)
  deriving DecidableEq, Repr

/-- R63: an instruction assembles to its word followed by its operand words in order, and `.word`
assembles to the words as given. -/
def assembleLine : AsmLine → List Word
  | .instr i ps => encode i :: ps
  | .data ws => ws

/-- R63: the words of a sequence of lines. -/
def assemble : List AsmLine → List Word
  | [] => []
  | l :: ls => assembleLine l ++ assemble ls

/-- The four words (the longest instruction, R54) of an instruction whose bits are `w`, numbered as the
host numbers them: word 0 is bits 63..0, word 1 bits 127..64, and so on; every bit at or above `nbits`
is 0. DESIGN CHOICE: the numbering is the host's, not the spec's (log entry 5). -/
def tableWords (nbits w : Nat) : List Word :=
  let bits := w % 2 ^ nbits
  [BitVec.ofNat 64 bits, BitVec.ofNat 64 (bits / 2 ^ 64), BitVec.ofNat 64 (bits / 2 ^ 128),
    BitVec.ofNat 64 (bits / 2 ^ 192)]

/-- The instruction the decoder reads from the first of `tableWords`; none where it refuses. The
operand words play no part in decoding (R72). -/
def decodeTableWord (nbits w : Nat) : Option Instr :=
  match decode ((tableWords nbits w).headD 0) with
  | .ok i => some i
  | .error _ => none

end Sys2Proof
end

