-- ==== Sys2Proof/Config.lean ====
section
/-! DEFINITION. What the hardware leaves as an OPEN parameter (00_scope.md R4). No free value is
needed: the spec leaves no result of an instruction undefined. -/

namespace Sys2Proof

/-- The configuration of one core. The only OPEN parameter is `ADDR_LIMIT` (R4, decision D3). -/
structure Config where
  /-- `ADDR_LIMIT`: valid addresses are `0 <= a < addrLimit` (R33). -/
  addrLimit : Nat
  deriving DecidableEq, Repr

/-- R4: the legal range of `ADDR_LIMIT` is 1 to 2^63 - 1. -/
abbrev Config.Legal (c : Config) : Prop :=
  1 ≤ c.addrLimit ∧ c.addrLimit ≤ 9223372036854775807

/-- R4: the default `ADDR_LIMIT`, 2^63 - 1. DESIGN CHOICE: State.reset takes the spec's default
(log entry 2; unsafe for programs that touch addresses no real memory holds). -/
def Config.default : Config := ⟨9223372036854775807⟩

end Sys2Proof
end

