-- ==== Sys2Proof/Machine/State.lean ====
section
/-! DEFINITION. The architectural state (10_state.md): plain data, one field per piece of state, and the
state right after reset (R24, R150). -/

namespace Sys2Proof.Machine

/-- The execution status (R19). -/
inductive Status where
  /-- Runnable: the core executes the instruction at `ptr` when stepped. -/
  | running
  /-- Suspended on an input instruction whose queue was empty. -/
  | needsInput
  /-- Terminal: a halt instruction was decoded. -/
  | halted
  /-- Terminal: a fault was raised, and `frec` says which. -/
  | fault
  deriving DecidableEq, Repr

/-- The fault causes (R130). -/
inductive Cause where
  /-- R131: a negative word, or low two digits that are no opcode. -/
  | unknownOpcode
  /-- R132: an address outside `0 <= a < ADDR_LIMIT`. -/
  | invalidAddress
  /-- R133: a mode digit above 2, or an immediate destination. -/
  | invalidMode
  deriving DecidableEq, Repr

/-- The fault record (R21). -/
structure FaultRecord where
  /-- Which fault. -/
  cause : Cause
  /-- `ptr` when the faulting instruction started. -/
  ptr : Word
  /-- The instruction word fetched at `ptr`; none when the fetch itself faulted. -/
  word : Option Word
  /-- For `InvalidAddress`, the offending address, exact (possibly outside 64 bits). -/
  addr : Option Int
  deriving DecidableEq, Repr

/-- The cells that do not read 0, as (address, word) pairs, addresses strictly rising (R10: an address
that is not listed reads 0). The spec's unit of memory is the 64-bit word, so a cell holds a word and
not a byte (R30, log entry 1). -/
abbrev Memory := List (Nat × Word)

/-- The complete state of one core (10_state.md), and its configuration. -/
structure State where
  /-- The one memory, holding code and data (R10). -/
  mem : Memory
  /-- The current length of memory (R11). -/
  len : Nat
  /-- The instruction pointer, a word address, signed (R12). -/
  ptr : Word
  /-- The relative base (R16). -/
  rb : Word
  /-- The input queue, head first (R17). -/
  inq : List Word
  /-- The output sequence, oldest first (R18). -/
  outq : List Word
  /-- The execution status (R19). -/
  status : Status
  /-- The fault record (R21). -/
  frec : Option FaultRecord
  /-- The OPEN parameter `ADDR_LIMIT` (R4). It is configuration, not state of the core (R22): no step
  and no host operation changes it (log entry 2). -/
  cfg : Config
  deriving DecidableEq, Repr

/-- Why `step` has no next state. A fault of the HARDWARE is none of these: it is a next state with
`status = fault` (R136). -/
inductive Fault where
  /-- Raised by `step` alone, when the status is `NeedsInput`: the core has no step until the host's
  next `run` (R70, R116). Safe (log entry 3). -/
  | noStepNeedsInput
  /-- Raised by `step` alone, when the status is `Halted`: terminal (R70, R19). Safe (log entry 3). -/
  | noStepHalted
  /-- Raised by `step` alone, when the status is `Fault`: terminal (R70, R137, R138). Safe (log
  entry 3). -/
  | noStepFault
  deriving DecidableEq, Repr

/-- Why an instruction has no meaning. -/
inductive Refusal where
  /-- Raised by an arm of `exec` that has no meaning yet, and by nothing else. Safe. No arm of this model
  raises it. -/
  | notModelled (mnemonic : String)
  deriving DecidableEq, Repr

/-- The machine right after reset (R24, R150) with an empty program and an empty input batch, at the
default `ADDR_LIMIT`. `status` and `frec` are the spec's decisions D14 and D16 (log entry 6); a program
is loaded from outside the machine (log entry 5). -/
def State.reset : State where
  mem := []
  len := 0
  ptr := 0
  rb := 0
  inq := []
  outq := []
  status := .running
  frec := none
  cfg := Config.default

end Sys2Proof.Machine
end

