-- ==== Sys2Proof/Machine/Ops.lean ====
section
/-! DEFINITION. The operations over memory and registers that every instruction is built from: reading and
writing one cell, the primitives `CheckAddr`, `Grow`, `MemRead`, `MemWrite` (20_memory.md R32 to R35),
raising a fault (60_exceptions.md R136) and advancing `ptr` (10_state.md R13). -/

namespace Sys2Proof.Machine

/-- The content of one cell; an address that is not listed reads 0 (R10, R24). -/
def Memory.read (m : Memory) (a : Nat) : Word :=
  match m with
  | [] => 0#64
  | (b, v) :: t => if a = b then v else Memory.read t a

/-- One cell replaced, in the canonical form: writing 0 removes the entry. -/
def Memory.write (m : Memory) (a : Nat) (v : Word) : Memory :=
  match m with
  | [] => if v = 0#64 then [] else [(a, v)]
  | (b, u) :: t =>
    if a < b then (if v = 0#64 then (b, u) :: t else (a, v) :: (b, u) :: t)
    else if a = b then (if v = 0#64 then t else (a, v) :: t)
    else (b, u) :: Memory.write t a v

/-- The cells of a sequence of words laid out from address `a` on, in the canonical form. -/
def Memory.load (a : Nat) (p : List Word) : Memory :=
  match p with
  | [] => []
  | v :: t => if v = 0#64 then Memory.load (a + 1) t else (a, v) :: Memory.load (a + 1) t

/-- The canonical form from address `lo` on: addresses strictly rising, no entry 0. -/
def Memory.wfFrom (lo : Nat) (m : Memory) : Bool :=
  match m with
  | [] => true
  | (b, v) :: t => decide (lo ≤ b) && decide (v ≠ 0#64) && Memory.wfFrom (b + 1) t

/-- The canonical form of a memory. -/
def Memory.wf (m : Memory) : Bool := Memory.wfFrom 0 m

/-- Every listed address is below `n`: with `n = len`, rule R23(b). -/
def Memory.below (n : Nat) (m : Memory) : Bool := m.all fun c => decide (c.1 < n)

/-- `0 <= a < ADDR_LIMIT` (R33). -/
def validAddr (c : Config) (a : Int) : Bool := decide (0 ≤ a) && decide (a < (c.addrLimit : Int))

/-- The length after growth to hold address `a` (R32). -/
def growLen (len a : Nat) : Nat := if len ≤ a then a + 1 else len

/-- `Grow(a)` (R32): exactly `a + 1`, and only when `a` is at or past `len`. -/
def State.grow (s : State) (a : Nat) : State := { s with len := growLen s.len a }

/-- TAKING A FAULT (R136): the record and the status are written and nothing else; `ptr`, `rb`, the queues
and every cell keep their values, and `len` keeps the growth already made. Control goes nowhere. There is
no return from a fault (R138). -/
def State.raise (s : State) (cause : Cause) (word : Option Word) (addr : Option Int) : State :=
  { s with status := .fault, frec := some ⟨cause, s.ptr, word, addr⟩ }

/-- `ptr <- ptr + k` (R13). The exact sum never leaves 64 bits in a completed instruction. -/
def State.advance (s : State) (k : Nat) : State :=
  { s with ptr := BitVec.ofInt 64 (s.ptr.toInt + k) }

/-- What a checked access answers: a value and the state after it, or the state after a raise, with which
the step ends (00_scope.md section 6.4). -/
inductive Acc (α : Type) where
  | ok (v : α) (s : State)
  | raised (s : State)
  deriving DecidableEq, Repr

/-- Sequencing: a raise abandons the instruction at once (00_scope.md section 6.4). -/
def Acc.bind {α β : Type} (r : Acc α) (k : α → State → Acc β) : Acc β :=
  match r with
  | .ok v s => k v s
  | .raised s => .raised s

/-- The end of an instruction: what follows on success, and the raised state as the next state. -/
def Acc.done {α : Type} (r : Acc α) (k : α → State → Host.Outcome State Fault Refusal) :
    Host.Outcome State Fault Refusal :=
  match r with
  | .ok v s => k v s
  | .raised s => .next s

/-- `CheckAddr(a)` (R33). `word` is the instruction word for the fault record (R132), none at fetch. -/
def checkAddr (word : Option Word) (a : Int) (s : State) : Acc Nat :=
  if validAddr s.cfg a then .ok a.toNat s else .raised (s.raise .invalidAddress word (some a))

/-- `MemRead(a, 1)` (R34): check, grow, read. -/
def memRead (word : Option Word) (a : Int) (s : State) : Acc Word :=
  (checkAddr word a s).bind fun n s => .ok (s.mem.read n) (s.grow n)

/-- `MemWrite(a, 1, v)` (R35): check, grow, write. -/
def memWrite (word : Option Word) (a : Int) (v : Word) (s : State) : Acc Unit :=
  (checkAddr word a s).bind fun n s => .ok () { s.grow n with mem := s.mem.write n v }

/-- The instruction word at `ptr`, as a fault of the running instruction records it (R21): the step has
just fetched it and nothing has written since. None where `ptr` is no valid address (log entry 4). -/
def State.instrWord (s : State) : Option Word :=
  if validAddr s.cfg s.ptr.toInt then some (s.mem.read s.ptr.toInt.toNat) else none

end Sys2Proof.Machine
end

