-- ==== Sys2Proof/Machine/Operands.lean ====
section
/-! DEFINITION. Operand resolution, the addressing-mode dispatcher (40_step_and_operands.md R75 to R81):
every operand form of the machine. -/

namespace Sys2Proof.Machine

/-- The address an operand refers to, from its mode, its operand word and the relative base, as an exact
integer (R76, R77, R80): the relative sum is not wrapped. An immediate operand refers to none. -/
def effAddr (m : Mode) (p rb : Word) : Option Int :=
  match m with
  | .position => some p.toInt
  | .immediate => none
  | .relative => some (rb.toInt + p.toInt)

/-- `p_k <- MemRead(ptr + k, 1)` (R75). -/
def operandWord (word : Option Word) (k : Nat) (s : State) : Acc Word :=
  memRead word (s.ptr.toInt + k) s

/-- `SrcVal(k)` (R76), from the operand word `p`. -/
def srcVal (word : Option Word) (m : Mode) (p : Word) (s : State) : Acc Word :=
  match effAddr m p s.rb with
  | none => .ok p s
  | some ea => memRead word ea s

/-- `DstAddr(k)` (R77), from the operand word `p`: checked and grown, not read. Decode has rejected an
immediate destination (R59), so no step meets that case; the term raises the same cause (log entry 4). -/
def dstAddr (word : Option Word) (m : Mode) (p : Word) (s : State) : Acc Int :=
  match effAddr m p s.rb with
  | none => .raised (s.raise .invalidMode word none)
  | some ea => (checkAddr word ea s).bind fun n s => .ok ea (s.grow n)

/-- Operand `k` as a source: its word is fetched and then at once resolved (R78). -/
def source (word : Option Word) (k : Nat) (m : Mode) (s : State) : Acc Word :=
  (operandWord word k s).bind fun p s => srcVal word m p s

/-- Operand `k` as a destination (R78). -/
def dest (word : Option Word) (k : Nat) (m : Mode) (s : State) : Acc Int :=
  (operandWord word k s).bind fun p s => dstAddr word m p s

/-- The operands of format F2 (R54): two sources, in order (R78). -/
def resolveSS (a b : Mode) (s : State) : Acc (Word × Word) :=
  (source s.instrWord 1 a s).bind fun v1 s1 =>
  (source s.instrWord 2 b s1).bind fun v2 s2 => .ok (v1, v2) s2

/-- The operands of format F3 (R54): two sources and a destination, in order (R78). -/
def resolveSSD (a b d : Mode) (s : State) : Acc (Word × Word × Int) :=
  (source s.instrWord 1 a s).bind fun v1 s1 =>
  (source s.instrWord 2 b s1).bind fun v2 s2 =>
  (dest s.instrWord 3 d s2).bind fun ea s3 => .ok (v1, v2, ea) s3

end Sys2Proof.Machine
end

