-- ==== Sys2Proof/Machine/Arith.lean ====
section
/-! DEFINITION. `ADD` and `MUL` (41_arithmetic.md), and the shape they share with the comparisons. -/

namespace Sys2Proof.Machine

/-- Format F3 (R54, R79): resolve the three operands, write `f v_1 v_2` to the destination, advance by 4. -/
def binaryOp (f : Word → Word → Word) (a b d : Mode) (s : State) : Host.Outcome State Fault Refusal :=
  (resolveSSD a b d s).done fun r s1 =>
    (memWrite s.instrWord r.2.2 (f r.1 r.2.1) s1).done fun _ s2 => .next (s2.advance 4)

/-- `ADD a, b, dest` (R90): `MemWrite(d_3, 1, wrap64(v_1 + v_2)); ptr <- ptr + 4`. -/
def execAdd (a b d : Mode) (s : State) : Host.Outcome State Fault Refusal := binaryOp aluAdd a b d s

/-- `MUL a, b, dest` (R91): `MemWrite(d_3, 1, wrap64(v_1 * v_2)); ptr <- ptr + 4`. -/
def execMul (a b d : Mode) (s : State) : Host.Outcome State Fault Refusal := binaryOp aluMul a b d s

end Sys2Proof.Machine
end

