-- ==== Sys2Proof/Machine/Compare.lean ====
section
/-! DEFINITION. `LT` and `EQ` (44_compare.md): the result 1 or 0 is written in both cases. -/

namespace Sys2Proof.Machine

/-- `LT a, b, dest` (R105): signed comparison of the exact values. -/
def execLt (a b d : Mode) (s : State) : Host.Outcome State Fault Refusal := binaryOp aluLt a b d s

/-- `EQ a, b, dest` (R106): equality of the full 64-bit values. -/
def execEq (a b d : Mode) (s : State) : Host.Outcome State Fault Refusal := binaryOp aluEq a b d s

end Sys2Proof.Machine
end

