-- ==== Sys2Proof/Machine/Io.lean ====
section
/-! DEFINITION. `IN` and `OUT` (42_io.md). -/

namespace Sys2Proof.Machine

/-- `IN dest` (R95). An empty queue suspends before the operand word is fetched, and nothing but the status
changes (R74). Otherwise the destination is resolved first, so a fault consumes nothing; then the head of the
queue is removed and written, and `ptr` advances by 2. -/
def execInp (d : Mode) (s : State) : Host.Outcome State Fault Refusal :=
  match s.inq with
  | [] => .next { s with status := .needsInput }
  | v :: rest =>
    (dest s.instrWord 1 d s).done fun ea s1 =>
      (memWrite s.instrWord ea v { s1 with inq := rest }).done fun _ s2 => .next (s2.advance 2)

/-- `OUT a` (R96): `outq <- push_back(outq, v_1); ptr <- ptr + 2`. -/
def execOut (a : Mode) (s : State) : Host.Outcome State Fault Refusal :=
  (source s.instrWord 1 a s).done fun v s1 => .next ({ s1 with outq := s1.outq ++ [v] }.advance 2)

end Sys2Proof.Machine
end

