-- ==== Sys2Proof/Machine/Jumps.lean ====
section
/-! DEFINITION. `JT` and `JF` (43_jumps.md): absolute jumps. Both operands are resolved whether or not the jump
is taken (R78), and the target value is not checked here: the next fetch does that (R102). -/

namespace Sys2Proof.Machine

/-- Format F2 (R54): resolve both operands; `ptr` becomes the target value where `taken v_1`, else advances by 3. -/
def jumpOp (taken : Word → Bool) (c t : Mode) (s : State) : Host.Outcome State Fault Refusal :=
  (resolveSS c t s).done fun r s1 =>
    .next (if taken r.1 then { s1 with ptr := r.2 } else s1.advance 3)

/-- `JT cond, target` (R100): taken when the condition is not 0. -/
def execJt (c t : Mode) (s : State) : Host.Outcome State Fault Refusal := jumpOp testTrue c t s

/-- `JF cond, target` (R101): taken when the condition is exactly 0. -/
def execJf (c t : Mode) (s : State) : Host.Outcome State Fault Refusal := jumpOp (fun v => !testTrue v) c t s

end Sys2Proof.Machine
end

