-- ==== Sys2Proof/Machine/RelBase.lean ====
section
/-! DEFINITION. `ARB` and `HLT` (45_relbase_halt.md). -/

namespace Sys2Proof.Machine

/-- `ARB a` (R110): `rb <- wrap64(rb + v_1); ptr <- ptr + 2`, the operand resolved with the old `rb`. -/
def execArb (a : Mode) (s : State) : Host.Outcome State Fault Refusal :=
  (source s.instrWord 1 a s).done fun v s1 => .next ({ s1 with rb := aluAdd s1.rb v }.advance 2)

/-- `HLT` (R111, R73): the status becomes `Halted` and nothing else changes; `ptr` stays on the halt word (the
spec's decision D12, log entry 10). -/
def execHlt (s : State) : Host.Outcome State Fault Refusal := .next { s with status := .halted }

end Sys2Proof.Machine
end

