-- ==== Sys2Proof/Machine/Fetch.lean ====
section
/-! DEFINITION. Fetch and decode (40_step_and_operands.md R70 to R72), the status a step needs, and the placing of
an instruction's words where the next fetch reads them. -/

namespace Sys2Proof.Machine

/-- The cause a decode error raises (R131, R133). -/
def causeOf : DecodeError → Cause
  | .unknownOpcode => .unknownOpcode
  | .invalidMode => .invalidMode

/-- Phases (1) and (2) of the step: `MemRead(ptr, 1)` (R71), then `Decode` (R72). A fetch fault records no word,
a decode fault the word (R131 to R133). -/
def fetchInstr (s : State) : Acc Instr :=
  (memRead none s.ptr.toInt s).bind fun w s1 =>
    match decode w with
    | .ok i => .ok i s1
    | .error e => .raised (s1.raise (causeOf e) (some w) none)

/-- R70: a step is enabled only when the status is `Running`. In any other status the core has no step (log
entry 3). -/
def stepEnabled (s : State) : Except Fault State :=
  match s.status with
  | .running => .ok s
  | .needsInput => .error .noStepNeedsInput
  | .halted => .error .noStepHalted
  | .fault => .error .noStepFault

/-- The words `ws` stored from address `a` on, with the growth of R32. -/
def placeWords (a : Nat) (ws : List Word) (s : State) : State :=
  match ws with
  | [] => s
  | v :: t => placeWords (a + 1) t { s.grow a with mem := s.mem.write a v }

/-- Where `withFetchWord` puts an instruction of up to four words: at `ptr` when they fit below `ADDR_LIMIT`
there, else at 0 (log entry 5). -/
def fetchBase (s : State) : Nat :=
  if 0 ≤ s.ptr.toInt ∧ s.ptr.toInt + 4 ≤ s.cfg.addrLimit then s.ptr.toInt.toNat else 0

/-- The host's load of one instruction (log entry 5): its words stored at `ptr`, and the core runnable. -/
def placeInstr (ws : List Word) (s : State) : State :=
  placeWords (fetchBase s) ws { s with ptr := BitVec.ofNat 64 (fetchBase s), status := .running, frec := none }

end Sys2Proof.Machine
end

