-- ==== Sys2Proof/Machine/Step.lean ====
section
/-! DEFINITION. The step (40_step_and_operands.md R70). -/

namespace Sys2Proof.Machine

/-- `Step()` (R70): fetch, decode and execute one instruction of a core that is `Running`. -/
def step (s : State) : Host.Outcome State Fault Refusal :=
  match stepEnabled s with
  | .ok s0 => (fetchInstr s0).done exec
  | .error f => .fault f

/-- `s` with the instruction of `tableWords nbits w` where the next step fetches (log entry 5). -/
def State.withFetchWord (s : State) (nbits w : Nat) : State := placeInstr (tableWords nbits w) s

end Sys2Proof.Machine
end

