-- ==== Sys2Proof/Machine/HostOps.lean ====
section
/-! DEFINITION. The host's operations (46_host_operations.md, 70_reset_and_hazards.md R150): each one atomic
transaction on a core that is not in a run (R115). A host operation during a run has no meaning and no definition
here (decision D21). -/

namespace Sys2Proof.Machine

/-- `Reset(P, I)` (R150), the source's `new`: every piece of state gets its value (R24). A program longer than
`ADDR_LIMIT` is refused and no machine exists (decision D27). -/
def newMachine (c : Config) (program inputs : List Word) : Option State :=
  if program.length ≤ c.addrLimit then
    some { mem := Memory.load 0 program, len := program.length, ptr := 0, rb := 0, inq := inputs, outq := [], status := .running, frec := none, cfg := c }
  else none

/-- Reset of an existing core (R151): nothing of the old state survives but the configuration. -/
def resetCore (program inputs : List Word) (s : State) : Option State := newMachine s.cfg program inputs

/-- The beginning of `run` (R116): a suspended core becomes runnable, and the instruction at `ptr` is re-attempted. -/
def resume (s : State) : State :=
  match s.status with
  | .needsInput => { s with status := .running }
  | _ => s

/-- The loop of `run` (R116): steps while the status is `Running`, at most `fuel` of them; none when the fuel ends
first (R117). -/
def runLoop (fuel : Nat) (s : State) : Option State :=
  match s.status, fuel with
  | .running, 0 => none
  | .running, n + 1 =>
    match step s with
    | .next t => runLoop n t
    | .fault _ => none
    | .refused _ => none
  | _, _ => some s

/-- `run()` (R116) under fuel: the status it returns and the state it leaves. `Halted` and `Fault` return at once
with no side effects (decision D13). -/
def run (fuel : Nat) (s : State) : Option (Status × State) :=
  (runLoop fuel (resume s)).map fun t => (t.status, t)

/-- A `run` that never returns (R117): a hang, not a status. -/
def Diverges (s : State) : Prop := ∀ fuel, run fuel s = none

/-- `push_input(value)` (R119): appended to the tail; nothing else changes, in every status (decision D18). -/
def pushInput (v : Word) (s : State) : State := { s with inq := s.inq ++ [v] }

/-- `take_output()` (R120): the head, removed; none and no change when there is none (decision D17). -/
def takeOutput (s : State) : Option Word × State :=
  match s.outq with
  | [] => (none, s)
  | v :: rest => (some v, { s with outq := rest })

/-- `drain_outputs()` (R121): all of it, oldest first, and the sequence emptied. -/
def drainOutputs (s : State) : List Word × State := (s.outq, { s with outq := [] })

/-- `status()` (R122): no change. -/
def readStatus (s : State) : Status := s.status

/-- The fault record read (R123): no change. -/
def readFault (s : State) : Option FaultRecord := s.frec

/-- The diagnostic memory read (R124): `mem[0 .. len-1]`, no growth and no fault. -/
def readMemory (s : State) : List Word := (List.range s.len).map s.mem.read

/-- The diagnostic read of one word (R124): none outside `0 .. len-1`, no growth and no fault. -/
def readWord (a : Int) (s : State) : Option Word :=
  if 0 ≤ a ∧ a < s.len then some (s.mem.read a.toNat) else none

/-- The code of a status on a status port (R19, decision D15). -/
def Status.code : Status → Nat
  | .running => 0
  | .needsInput => 1
  | .halted => 2
  | .fault => 3

/-- The code of a cause (R21, R130, decision D15). -/
def Cause.code : Cause → Nat
  | .unknownOpcode => 1
  | .invalidAddress => 2
  | .invalidMode => 3

/-- The cause code of the fault record, 0 for no fault (R21, decision D15). -/
def faultCode (s : State) : Nat :=
  match s.frec with
  | none => 0
  | some r => r.cause.code

/-- The line `needs_input` (R19). -/
def needsInputLine (s : State) : Bool := decide (s.status = .needsInput)

/-- The line `halted` (R19). -/
def haltedLine (s : State) : Bool := decide (s.status = .halted)

/-- The line `fault` (R19). -/
def faultLine (s : State) : Bool := decide (s.status = .fault)

/-- The source's "offending opcode" (R21): `word mod 100` when the word is there and not negative. -/
def FaultRecord.opcode (r : FaultRecord) : Option Nat :=
  match r.word with
  | none => none
  | some w => if w.toInt < 0 then none else some (w.toNat % 100)

end Sys2Proof.Machine
end

