-- ==== Sys2Proof/Safety.lean ====
section
/-! DEFINITION. The terms in which statements speak of the machine: what an instruction's operands are in a given
state, which addresses resolving them touches, what a good state is. They describe whole states and do not run the
machine. -/

namespace Sys2Proof.Machine

/-- The `k`-th operand word of the instruction at `ptr` (R75), as memory holds it. -/
def operandAt (s : State) (k : Nat) : Word := s.mem.read (s.ptr.toInt + k).toNat

/-- The effective address of operand `k` in mode `m` (R76, R77), none for an immediate: `effAddr`, which the meanings
use, on the operand word and the relative base. -/
def eaOf (s : State) (k : Nat) (m : Mode) : Option Int := effAddr m (operandAt s k) s.rb

/-- The value of operand `k` as a source in mode `m` (R76, R81). -/
def valueOf (s : State) (k : Nat) (m : Mode) : Word :=
  match eaOf s k m with
  | none => operandAt s k
  | some ea => s.mem.read ea.toNat

/-- The addresses that resolving operand `k` touches, in order (R78): its word's, then its effective address. -/
def touchedBy (s : State) (k : Nat) (m : Mode) : List Int := (s.ptr.toInt + k) :: (eaOf s k m).toList

/-- The addresses that resolving the operands `k, k+1, …` touches, in the order of R78. -/
def touched (s : State) (k : Nat) (ms : List Mode) : List Int :=
  match ms with
  | [] => []
  | m :: t => touchedBy s k m ++ touched s (k + 1) t

/-- The length after the addresses `as` have been touched in turn (R32). -/
def growAll (len : Nat) (as : List Int) : Nat :=
  match as with
  | [] => len
  | a :: t => growAll (growLen len a.toNat) t

/-- Every address of `as` passes `CheckAddr` (R33). -/
abbrev AllValid (c : Config) (as : List Int) : Prop := ∀ a ∈ as, validAddr c a = true

/-- `a` is the first address of `as` that does not pass `CheckAddr`, and `pre` are those before it. -/
abbrev FirstInvalid (c : Config) (as pre : List Int) (a : Int) : Prop :=
  pre ++ [a] <+: as ∧ AllValid c pre ∧ validAddr c a = false

/-- The state of an instruction that faults while its operands are resolved (R132, R136): `pre` touched, then `a`
found invalid. -/
def addressFault (s : State) (pre : List Int) (a : Int) : State :=
  { s with len := growAll s.len pre, status := .fault, frec := some ⟨.invalidAddress, s.ptr, s.instrWord, some a⟩ }

/-- R23(a), R23(b) and the canonical form: no cell at or past `len` differs from 0, and `len <= ADDR_LIMIT`. -/
abbrev MemInv (s : State) : Prop :=
  s.cfg.Legal ∧ s.mem.wf = true ∧ s.mem.below s.len = true ∧ s.len ≤ s.cfg.addrLimit

/-- What a fault record says fits its cause (R21, R131 to R133): `InvalidAddress` records an address outside
`0 .. ADDR_LIMIT - 1`, and the word is missing only when that address is `ptr`; the other two record the word at `ptr`,
which decode rejects for that cause, and no address. -/
def RecordFits (s : State) (r : FaultRecord) : Bool :=
  match r.cause, r.word, r.addr with
  | .invalidAddress, none, some a => decide (a = s.ptr.toInt) && !validAddr s.cfg a
  | .invalidAddress, some w, some a =>
    decide (w = s.mem.read s.ptr.toInt.toNat) && validAddr s.cfg s.ptr.toInt && !validAddr s.cfg a
  | .unknownOpcode, some w, none =>
    decide (w = s.mem.read s.ptr.toInt.toNat) && decide (decode w = .error .unknownOpcode)
  | .invalidMode, some w, none =>
    decide (w = s.mem.read s.ptr.toInt.toNat) && decide (decode w = .error .invalidMode)
  | _, _, _ => false

/-- The instruction memory holds at `ptr`, whatever the status; none when `ptr` is past memory or its word is none. -/
def instrAt (s : State) : Option Instr :=
  if 0 ≤ s.ptr.toInt ∧ s.ptr.toInt < s.len then
    (match decode (s.mem.read s.ptr.toInt.toNat) with
     | .ok i => some i
     | .error _ => none)
  else none

/-- The decoded instruction is an input. -/
def isInput : Option Instr → Bool
  | some (.inp _) => true
  | _ => false

/-- What each status says of `frec` and of the instruction at `ptr`: R23(e) with R21; R19 (a suspended core's `ptr`
addresses the input instruction); R111 (a halted core's `ptr` addresses the halt word). -/
def StatusFits (s : State) : Bool :=
  match s.status, s.frec with
  | .running, none => true
  | .needsInput, none => isInput (instrAt s)
  | .halted, none => decide (instrAt s = some .hlt)
  | .fault, some r => decide (r.ptr = s.ptr) && RecordFits s r
  | _, _ => false

/-- The invariant of the core (R23), with what each status promises. -/
abbrev CoreInv (s : State) : Prop := MemInv s ∧ StatusFits s = true

/-- `n` calls of `take_output` (R120), with the values they return. -/
def takeMany (n : Nat) (s : State) : List (Option Word) × State :=
  match n with
  | 0 => ([], s)
  | n + 1 => ((takeOutput s).1 :: (takeMany n (takeOutput s).2).1, (takeMany n (takeOutput s).2).2)

end Sys2Proof.Machine
end

