-- ==== Sys2Proof/Certificates/Slice0/Obligations.lean ====
section
/-! DEFINITION. The statements for the provers. Each docstring names the rules of spec/ it formalises; where a clause
rests on a decision the spec marks as its own, or on a choice of the model, it says so. -/

open Sys2Proof Sys2Proof.Machine

namespace Sys2Proof.Claims

/-- The roles of the operands of an opcode, in operand order, true for a destination (the table of R54); none for an
opcode the table does not hold. Written from the table, not from the decoder. -/
def rolesOf (op : Nat) : Option (List Bool) :=
  if op = 1 ∨ op = 2 ∨ op = 7 ∨ op = 8 then some [false, false, true]
  else if op = 3 then some [true]
  else if op = 4 ∨ op = 9 then some [false]
  else if op = 5 ∨ op = 6 then some [false, false]
  else if op = 99 then some []
  else none

/-- The decimal digit of the mode of operand `k`, from 1 (R50: digit `k + 1`). -/
abbrev digitOf (w : Word) (k : Nat) : Nat := w.toNat / 10 ^ (k + 1) % 10

/-- Some operand of the roles `rs` has a mode digit above 2, or 1 on a destination (R58, R59). -/
abbrev HasBadDigit (w : Word) (rs : List Bool) : Prop :=
  ∃ k < rs.length, 2 < digitOf w (k + 1) ∨ (rs.getD k false = true ∧ digitOf w (k + 1) = 1)

/-- The words of opcode `op` with a mode digit its roles do not admit are rejected as `InvalidMode` (R133). -/
abbrev RejectsBadDigits (op : Nat) (rs : List Bool) : Prop :=
  ∀ w : Word, 0 ≤ w.toInt → w.toNat % 100 = op → HasBadDigit w rs → decode w = .error .invalidMode

/-- In a state whose operands touch a first invalid address, the instruction ends in the address fault (R132, R136). -/
abbrev FaultsAtFirstInvalid (i : Instr) (s : State) : Prop :=
  ∀ (pre : List Int) (e : Int), FirstInvalid s.cfg (touched s 1 i.modes) pre e → exec i s = .next (addressFault s pre e)

/-- `t` has the memory of `s`, at every address. -/
abbrev SameMemory (s t : State) : Prop := ∀ x : Nat, t.mem.read x = s.mem.read x

/-- The status and the fault record of `t` are those of `s`, or `t` is faulted. -/
abbrev SameStatusOrFault (s t : State) : Prop := (t.status = s.status ∧ t.frec = s.frec) ∨ t.status = .fault

/-- The address and the value that instruction `i` stores when it completes (R90, R91, R95, R105, R106), none where it
stores nothing. The address is the meanings' own `eaOf` of the destination operand. -/
def storeOf (i : Instr) (s : State) : Option (Int × Word) :=
  match i with
  | .add a b d => (eaOf s 3 d).map fun ea => (ea, wrap64 ((valueOf s 1 a).toInt + (valueOf s 2 b).toInt))
  | .mul a b d => (eaOf s 3 d).map fun ea => (ea, wrap64 ((valueOf s 1 a).toInt * (valueOf s 2 b).toInt))
  | .lt a b d =>
    (eaOf s 3 d).map fun ea => (ea, if (valueOf s 1 a).toInt < (valueOf s 2 b).toInt then 1#64 else 0#64)
  | .eq a b d => (eaOf s 3 d).map fun ea => (ea, if valueOf s 1 a = valueOf s 2 b then 1#64 else 0#64)
  | .inp d => s.inq.head?.bind fun v => (eaOf s 1 d).map fun ea => (ea, v)
  | .out _ => none
  | .jt _ _ => none
  | .jf _ _ => none
  | .arb _ => none
  | .hlt => none

/-- `i` is a jump on the operands `c`, `g` whose condition is met in `s` (R100, R101). -/
abbrev JumpTaken (i : Instr) (c g : Mode) (s : State) : Prop :=
  (i = .jt c g ∧ valueOf s 1 c ≠ 0#64) ∨ (i = .jf c g ∧ valueOf s 1 c = 0#64)

end Sys2Proof.Claims

open Sys2Proof.Claims

/-! ### Encoding -/

/-- R50, R60, R63: the word of a well-formed instruction decodes to it, and so does every 64-bit word that differs from
it only by digits above the examined ones. That such digits are ignored is the spec's decision D7 (log entry 8). -/
def Obligations.DecodeInvertsEncode : Prop :=
  ∀ i : Instr, i.wellFormed = true →
    decode (encode i) = .ok i ∧
    ∀ (w : Word) (extra : Nat), w.toInt = encodeNat i + 10 ^ (i.width + 1) * extra → decode w = .ok i

/-- R50, R52, R61: a word decodes to an instruction exactly when it is not negative and its examined digits are the
instruction's encoding (decisions D4 to D7, log entries 8 and 15). -/
def Obligations.DecodedExactlyByExaminedDigits : Prop :=
  ∀ (w : Word) (i : Instr),
    decode w = .ok i ↔ (i.wellFormed = true ∧ 0 ≤ w.toInt ∧ w.toNat % 10 ^ (i.width + 1) = encodeNat i)

/-- R61: the verdict on every word. Negative: `UnknownOpcode` (decision D4). No row of the table: `UnknownOpcode`. A row,
and a mode digit its roles do not admit: `InvalidMode` (D5, D6). Otherwise an instruction with that opcode and those mode
digits (log entry 15). -/
def Obligations.DecodeVerdictOnEveryWord : Prop :=
  ∀ w : Word,
    (w.toInt < 0 → decode w = .error .unknownOpcode) ∧
    (0 ≤ w.toInt → rolesOf (w.toNat % 100) = none → decode w = .error .unknownOpcode) ∧
    ∀ rs : List Bool, 0 ≤ w.toInt → rolesOf (w.toNat % 100) = some rs →
      (HasBadDigit w rs → decode w = .error .invalidMode) ∧
      (¬ HasBadDigit w rs → ∃ i : Instr, decode w = .ok i ∧ i.opcode = w.toNat % 100 ∧
        i.modes.map Mode.digit = (List.range rs.length).map fun k => digitOf w (k + 1))

/-- R50: the digits of the word of an instruction. The opcode is the two low digits, the mode of operand `k` is digit
`k + 1`, which is digit `k - 1` of the mode field `w div 100`; the opcode alone fixes the number of operands, 0 to 3, and
with it the width; and operand word `k` is the memory word at `ptr + k`. -/
def Obligations.InstructionWordLayout : Prop :=
  ∀ (w : Word) (i : Instr), 0 ≤ w.toInt → decode w = .ok i →
    i.opcode = w.toNat % 100 ∧ i.modes.length ≤ 3 ∧ i.width = i.modes.length + 1 ∧
    (rolesOf (w.toNat % 100)).map List.length = some i.modes.length ∧
    (∀ k < i.modes.length, i.modes[k]?.map Mode.digit = some (digitOf w (k + 1)) ∧
      digitOf w (k + 1) = w.toNat / 100 / 10 ^ k % 10) ∧
    ∀ (s : State) (k : Nat), 1 ≤ k → k ≤ i.modes.length → validAddr s.cfg (s.ptr.toInt + k) = true →
      ∃ u : State, operandWord (some w) k s = .ok (s.mem.read (s.ptr.toInt + k).toNat) u

/-- R55: a source operand may use each of the three modes and a destination operand position or relative, never immediate,
with the roles of the table: no word decodes to another mode on a destination, and every combination the roles admit is
decoded. A destination names the memory word written. The target of a jump is a source: its value, not its address, is what
`ptr` is loaded with, and it may be immediate. That the sum or product stored is wrapped is the spec's decision D1 (log entry
7), that no word with an immediate destination decodes D6 (log entry 15), that a taken jump completes whatever the target value
is D11 (log entry 16). -/
def Obligations.ModesEachRoleAdmits : Prop :=
  (∀ (w : Word) (i : Instr) (rs : List Bool), decode w = .ok i → rolesOf i.opcode = some rs →
    ∀ k : Nat, rs.getD k false = true → i.modes[k]? = some .position ∨ i.modes[k]? = some .relative) ∧
  (∀ (i : Instr) (rs : List Bool), rolesOf i.opcode = some rs →
    (∀ k : Nat, rs.getD k false = true → i.modes[k]? ≠ some .immediate) → decode (encode i) = .ok i) ∧
  (∀ (i : Instr) (s : State) (ea : Int) (v : Word), s.mem.wf = true → storeOf i s = some (ea, v) →
    AllValid s.cfg (touched s 1 i.modes) → ∃ t : State, exec i s = .next t ∧ t.mem.read ea.toNat = v) ∧
  ∀ (i : Instr) (c g : Mode) (s : State), JumpTaken i c g s → AllValid s.cfg (touched s 1 [c, g]) →
    ∃ t : State, exec i s = .next t ∧ t.ptr = valueOf s 2 g ∧ (g = .immediate → t.ptr = operandAt s 2)

/-- R57: for `w >= 0`, low two digits 0 or 10 to 98 are `UnknownOpcode` whatever the higher digits are, and the step that
fetches such a word ends in that fault; the word 0 is one of them. That the record holds `ptr` and the whole word and no
address is R131 with the spec's decision D16 (log entry 20). -/
def Obligations.UnknownLowDigitsRejected : Prop :=
  (∀ w : Word, 0 ≤ w.toInt → (w.toNat % 100 = 0 ∨ (10 ≤ w.toNat % 100 ∧ w.toNat % 100 ≤ 98)) →
    decode w = .error .unknownOpcode ∧
    ∀ s : State, s.status = .running → validAddr s.cfg s.ptr.toInt = true → s.mem.read s.ptr.toInt.toNat = w →
      ∃ t : State, step s = .next t ∧ t.status = .fault ∧ t.frec = some ⟨.unknownOpcode, s.ptr, some w, none⟩) ∧
  decode 0#64 = .error .unknownOpcode

/-- Words written out from R54 and R63, and from the decode table V10 (95_test_vectors.md), one or more a family. -/
def Obligations.WordsOfTheTableDecode : Prop :=
  decode 1#64 = .ok (.add .position .position .position) ∧
  decode 21101#64 = .ok (.add .immediate .immediate .relative) ∧
  decode 1002#64 = .ok (.mul .position .immediate .position) ∧
  decode 203#64 = .ok (.inp .relative) ∧
  decode 204#64 = .ok (.out .relative) ∧
  decode 1105#64 = .ok (.jt .immediate .immediate) ∧
  decode 1006#64 = .ok (.jf .position .immediate) ∧
  decode 1107#64 = .ok (.lt .immediate .immediate .position) ∧
  decode 1008#64 = .ok (.eq .position .immediate .position) ∧
  decode 209#64 = .ok (.arb .relative) ∧
  decode 99#64 = .ok .hlt ∧
  decode 98#64 = .error .unknownOpcode ∧
  decode 103#64 = .error .invalidMode

/-! ### The ALU and the memory primitives -/

/-- R92: when the exact sum or product is a signed 64-bit integer it is the result; in every case the result is
congruent to it modulo 2^64 (the spec's decision D1, log entry 7). -/
def Obligations.AluResultsExactOrWrapped : Prop :=
  ∀ a b : Word,
    (-(2 ^ 63) ≤ a.toInt + b.toInt → a.toInt + b.toInt < 2 ^ 63 → (aluAdd a b).toInt = a.toInt + b.toInt) ∧
    (-(2 ^ 63) ≤ a.toInt * b.toInt → a.toInt * b.toInt < 2 ^ 63 → (aluMul a b).toInt = a.toInt * b.toInt) ∧
    (aluAdd a b).toInt % 2 ^ 64 = (a.toInt + b.toInt) % 2 ^ 64 ∧
    (aluMul a b).toInt % 2 ^ 64 = (a.toInt * b.toInt) % 2 ^ 64

/-- R32, R71: growth to hold `a` sets the length to exactly `a + 1`, only when `a` is at or past it, never shrinks it, changes
no cell and nothing else; the new cells read 0; and every kind of access grows: data read, data write, destination address,
operand-word fetch, instruction fetch, whether the word fetched decodes or not. A fetch at or past the length reads 0, grows,
and fails decode (R71(b)). That data reads and both fetches grow, and a destination with its address, are the spec's decisions
D24, D25 and D30 (log entry 14); the fault's record is D16 (log entry 20). -/
def Obligations.GrowthIsExactAndTransparent : Prop :=
  ∀ (s : State) (a : Nat),
    (s.len ≤ a → s.grow a = { s with len := a + 1 }) ∧ (a < s.len → s.grow a = s) ∧
    s.len ≤ (s.grow a).len ∧ a < (s.grow a).len ∧
    (s.mem.below s.len = true → ∀ b : Nat, s.len ≤ b → (s.grow a).mem.read b = 0#64) ∧
    (∀ (w : Option Word) (v : Word), validAddr s.cfg (a : Int) = true →
      memRead w (a : Int) s = .ok (s.mem.read a) (s.grow a) ∧
      memWrite w (a : Int) v s = .ok () { s.grow a with mem := s.mem.write a v } ∧
      ∀ (m : Mode) (p : Word), effAddr m p s.rb = some (a : Int) → dstAddr w m p s = .ok (a : Int) (s.grow a)) ∧
    (∀ (w : Option Word) (k : Nat), s.ptr.toInt + k = a → validAddr s.cfg (a : Int) = true →
      operandWord w k s = .ok (s.mem.read a) (s.grow a)) ∧
    (s.ptr.toInt = a → validAddr s.cfg (a : Int) = true →
      (∀ i : Instr, decode (s.mem.read a) = .ok i → fetchInstr s = .ok i (s.grow a)) ∧
      (∀ e : DecodeError, decode (s.mem.read a) = .error e →
        fetchInstr s = .raised ((s.grow a).raise (causeOf e) (some (s.mem.read a)) none)) ∧
      (s.mem.below s.len = true → s.len ≤ a →
        fetchInstr s = .raised ({ s with len := a + 1 }.raise .unknownOpcode (some 0#64) none)))

/-- R34: `MemRead(a, 1)` raises `InvalidAddress(a)` on an address that does not pass the check, else grows and returns the
cell; at or past the old length it returns 0 and leaves the length `a + 1`. The upper bound of the check is the spec's decision
D3 (log entry 2), the growth by a read D25 (log entry 14). -/
def Obligations.MemoryReadRule : Prop :=
  ∀ (w : Option Word) (a : Int) (s : State),
    (validAddr s.cfg a = false → memRead w a s = .raised (s.raise .invalidAddress w (some a))) ∧
    (validAddr s.cfg a = true → memRead w a s = .ok (s.mem.read a.toNat) (s.grow a.toNat)) ∧
    (validAddr s.cfg a = true → s.mem.below s.len = true → s.len ≤ a.toNat →
      memRead w a s = .ok 0#64 { s with len := a.toNat + 1 })

/-- 20_memory.md section 2, the write primitive: it raises on an address that does not pass the check; else the cell reads
the value written, every other cell reads as before, the memory grows and keeps its canonical form, and nothing else
changes. The upper bound of the check is decision D3 (log entry 2). -/
def Obligations.MemoryWriteRule : Prop :=
  ∀ (w : Option Word) (a : Int) (v : Word) (s : State), s.mem.wf = true →
    (validAddr s.cfg a = false → memWrite w a v s = .raised (s.raise .invalidAddress w (some a))) ∧
    (validAddr s.cfg a = true → ∃ m : Memory,
      memWrite w a v s = .ok () { s with mem := m, len := (s.grow a.toNat).len } ∧ m.wf = true ∧
      m.read a.toNat = v ∧ ∀ b : Nat, b ≠ a.toNat → m.read b = s.mem.read b)

/-- R76: the value of a source operand from its word `p`, in each mode; at or past the length it is 0 and the memory grows
to hold it. That the relative sum is exact, and what the fault carries, is R80's decision D2 (log entry 19); the upper bound of
the check is D3 (log entry 2), the growth by a read D25 (log entry 14). -/
def Obligations.SourceOperandRule : Prop :=
  ∀ (w : Option Word) (p : Word) (s : State),
    srcVal w .immediate p s = .ok p s ∧
    (validAddr s.cfg p.toInt = true →
      srcVal w .position p s = .ok (s.mem.read p.toInt.toNat) (s.grow p.toInt.toNat)) ∧
    (validAddr s.cfg p.toInt = false →
      srcVal w .position p s = .raised (s.raise .invalidAddress w (some p.toInt))) ∧
    (validAddr s.cfg (s.rb.toInt + p.toInt) = true →
      srcVal w .relative p s = .ok (s.mem.read (s.rb.toInt + p.toInt).toNat) (s.grow (s.rb.toInt + p.toInt).toNat)) ∧
    (validAddr s.cfg (s.rb.toInt + p.toInt) = false →
      srcVal w .relative p s = .raised (s.raise .invalidAddress w (some (s.rb.toInt + p.toInt)))) ∧
    (s.mem.below s.len = true → ∀ (m : Mode) (ea : Nat), effAddr m p s.rb = some (ea : Int) →
      validAddr s.cfg (ea : Int) = true → s.len ≤ ea → srcVal w m p s = .ok 0#64 { s with len := ea + 1 })

/-- R77: the address of a destination operand from its word `p`, in the two modes a destination admits: checked and grown,
its old content not read; and the write to it can no longer fault. That the relative sum is exact is R80's decision D2 (log
entry 19), that the address is grown before the effect D30 (log entry 14), the upper bound of the check D3 (log entry 2). -/
def Obligations.DestinationOperandRule : Prop :=
  ∀ (w : Option Word) (p : Word) (s : State),
    (validAddr s.cfg p.toInt = true → dstAddr w .position p s = .ok p.toInt (s.grow p.toInt.toNat)) ∧
    (validAddr s.cfg p.toInt = false →
      dstAddr w .position p s = .raised (s.raise .invalidAddress w (some p.toInt))) ∧
    (validAddr s.cfg (s.rb.toInt + p.toInt) = true →
      dstAddr w .relative p s = .ok (s.rb.toInt + p.toInt) (s.grow (s.rb.toInt + p.toInt).toNat)) ∧
    (validAddr s.cfg (s.rb.toInt + p.toInt) = false →
      dstAddr w .relative p s = .raised (s.raise .invalidAddress w (some (s.rb.toInt + p.toInt)))) ∧
    ∀ (m : Mode) (ea : Int) (t : State) (v : Word), dstAddr w m p s = .ok ea t →
      t = s.grow ea.toNat ∧ ∃ u : State, memWrite w ea v t = .ok () u

/-! ### The instructions: what each completes with -/

/-- R90 execute part: `mem[d_3] := wrap64(v_1 + v_2)`, `ptr + 4`, whatever the destination aliases. The wrap is decision
D1 (log entry 7). -/
def Obligations.AddCompletes : Prop :=
  ∀ (a b d : Mode) (s : State) (ea : Int),
    eaOf s 3 d = some ea → AllValid s.cfg (touched s 1 [a, b, d]) →
    exec (.add a b d) s = .next
      { s with mem := s.mem.write ea.toNat (wrap64 ((valueOf s 1 a).toInt + (valueOf s 2 b).toInt))
               len := growAll s.len (touched s 1 [a, b, d])
               ptr := s.ptr + 4#64 }

/-- R91 execute part: `mem[d_3] := wrap64(v_1 * v_2)`, `ptr + 4`. The wrap is decision D1 (log entry 7). -/
def Obligations.MulCompletes : Prop :=
  ∀ (a b d : Mode) (s : State) (ea : Int),
    eaOf s 3 d = some ea → AllValid s.cfg (touched s 1 [a, b, d]) →
    exec (.mul a b d) s = .next
      { s with mem := s.mem.write ea.toNat (wrap64 ((valueOf s 1 a).toInt * (valueOf s 2 b).toInt))
               len := growAll s.len (touched s 1 [a, b, d])
               ptr := s.ptr + 4#64 }

/-- R105: `mem[d_3] := 1` if `v_1 < v_2` (signed) else 0, `ptr + 4`; an address that does not pass the check faults; the
encoding; the words rejected. The order of the addresses and the growth a fault keeps are the spec's decisions D8, D9 and D10
(log entries 9 and 14), the words rejected D5 and D6 (log entry 15), the record D16 (log entry 20). -/
def Obligations.LtCompletesOrFaults : Prop :=
  (∀ (a b d : Mode) (s : State) (ea : Int),
    eaOf s 3 d = some ea → AllValid s.cfg (touched s 1 [a, b, d]) →
    exec (.lt a b d) s = .next
      { s with mem := s.mem.write ea.toNat (if (valueOf s 1 a).toInt < (valueOf s 2 b).toInt then 1#64 else 0#64)
               len := growAll s.len (touched s 1 [a, b, d])
               ptr := s.ptr + 4#64 }) ∧
  (∀ (a b d : Mode) (s : State), d ≠ .immediate → FaultsAtFirstInvalid (.lt a b d) s) ∧
  (∀ a b d : Mode, encodeNat (.lt a b d) = 7 + 100 * a.digit + 1000 * b.digit + 10000 * d.digit) ∧
  RejectsBadDigits 7 [false, false, true]

/-- R106: `mem[d_3] := 1` if `v_1 = v_2` else 0, `ptr + 4`; an address that does not pass the check faults; the encoding;
the words rejected. The order of the addresses and the growth a fault keeps are the spec's decisions D8, D9 and D10 (log
entries 9 and 14), the words rejected D5 and D6 (log entry 15), the record D16 (log entry 20). -/
def Obligations.EqCompletesOrFaults : Prop :=
  (∀ (a b d : Mode) (s : State) (ea : Int),
    eaOf s 3 d = some ea → AllValid s.cfg (touched s 1 [a, b, d]) →
    exec (.eq a b d) s = .next
      { s with mem := s.mem.write ea.toNat (if valueOf s 1 a = valueOf s 2 b then 1#64 else 0#64)
               len := growAll s.len (touched s 1 [a, b, d])
               ptr := s.ptr + 4#64 }) ∧
  (∀ (a b d : Mode) (s : State), d ≠ .immediate → FaultsAtFirstInvalid (.eq a b d) s) ∧
  (∀ a b d : Mode, encodeNat (.eq a b d) = 8 + 100 * a.digit + 1000 * b.digit + 10000 * d.digit) ∧
  RejectsBadDigits 8 [false, false, true]

/-- R95: on an empty queue the status becomes `NeedsInput` and nothing else changes, and resuming gives back the state
before; else the head of the queue goes to the destination, `ptr + 2`; an address that does not pass the check faults and
consumes nothing; the encoding; the words rejected, whatever the queue holds. That the suspension precedes every operand and
leaves only the status is the spec's decisions D9 and D26 (log entries 9 and 17); the order of the addresses and the growth a
fault keeps are D8, D9 and D10 (log entries 9 and 14), the words rejected D5 and D6 (log entry 15), the record D16 (log entry
20). -/
def Obligations.InputCompletesSuspendsOrFaults : Prop :=
  (∀ (d : Mode) (s : State), s.inq = [] →
    exec (.inp d) s = .next { s with status := .needsInput } ∧
    (s.status = .running → resume { s with status := .needsInput } = s)) ∧
  (∀ (d : Mode) (s : State) (v : Word) (rest : List Word) (ea : Int),
    s.inq = v :: rest → eaOf s 1 d = some ea → AllValid s.cfg (touched s 1 [d]) →
    exec (.inp d) s = .next
      { s with mem := s.mem.write ea.toNat v
               len := growAll s.len (touched s 1 [d])
               inq := rest
               ptr := s.ptr + 2#64 }) ∧
  (∀ (d : Mode) (s : State), d ≠ .immediate → s.inq ≠ [] → FaultsAtFirstInvalid (.inp d) s) ∧
  (∀ d : Mode, encodeNat (.inp d) = 3 + 100 * d.digit) ∧
  RejectsBadDigits 3 [true]

/-- R96: the value is appended to the output sequence, `ptr + 2`, the status is unchanged; an address that does not pass
the check faults; the encoding; the words rejected. The order of the addresses and the growth a fault keeps are the spec's
decisions D8, D9 and D10 (log entries 9 and 14), the words rejected D5 (log entry 15), the record D16 (log entry 20). -/
def Obligations.OutputCompletesOrFaults : Prop :=
  (∀ (a : Mode) (s : State), AllValid s.cfg (touched s 1 [a]) →
    exec (.out a) s = .next
      { s with outq := s.outq ++ [valueOf s 1 a]
               len := growAll s.len (touched s 1 [a])
               ptr := s.ptr + 2#64 }) ∧
  (∀ (a : Mode) (s : State), FaultsAtFirstInvalid (.out a) s) ∧
  (∀ a : Mode, encodeNat (.out a) = 4 + 100 * a.digit) ∧
  RejectsBadDigits 4 [false]

/-- R100: `ptr` becomes the value of the target if the condition is not 0, else `ptr + 3`; both operands are resolved in
either case; an address that does not pass the check faults; the encoding; the words rejected. That both are resolved whether or
not the jump is taken is the spec's decision D8 (log entry 9); the order of the addresses and the growth a fault keeps are D8,
D9 and D10 (log entries 9 and 14), the words rejected D5 (log entry 15), the record D16 (log entry 20). -/
def Obligations.JumpIfTrueCompletesOrFaults : Prop :=
  (∀ (c t : Mode) (s : State), AllValid s.cfg (touched s 1 [c, t]) →
    exec (.jt c t) s = .next
      { s with len := growAll s.len (touched s 1 [c, t])
               ptr := if valueOf s 1 c ≠ 0#64 then valueOf s 2 t else s.ptr + 3#64 }) ∧
  (∀ (c t : Mode) (s : State), FaultsAtFirstInvalid (.jt c t) s) ∧
  (∀ c t : Mode, encodeNat (.jt c t) = 5 + 100 * c.digit + 1000 * t.digit) ∧
  RejectsBadDigits 5 [false, false]

/-- R101: `ptr` becomes the value of the target if the condition is 0, else `ptr + 3`; both operands are resolved in either
case; an address that does not pass the check faults; the encoding; the words rejected. That both are resolved whether or
not the jump is taken is the spec's decision D8 (log entry 9); the order of the addresses and the growth a fault keeps are D8,
D9 and D10 (log entries 9 and 14), the words rejected D5 (log entry 15), the record D16 (log entry 20). -/
def Obligations.JumpIfFalseCompletesOrFaults : Prop :=
  (∀ (c t : Mode) (s : State), AllValid s.cfg (touched s 1 [c, t]) →
    exec (.jf c t) s = .next
      { s with len := growAll s.len (touched s 1 [c, t])
               ptr := if valueOf s 1 c = 0#64 then valueOf s 2 t else s.ptr + 3#64 }) ∧
  (∀ (c t : Mode) (s : State), FaultsAtFirstInvalid (.jf c t) s) ∧
  (∀ c t : Mode, encodeNat (.jf c t) = 6 + 100 * c.digit + 1000 * t.digit) ∧
  RejectsBadDigits 6 [false, false]

/-- R110 execute part: `rb := wrap64(rb + v_1)` with the operand resolved under the old `rb`, `ptr + 2`. The wrap is
decision D1 (log entry 7). -/
def Obligations.AdjustRelativeBaseCompletes : Prop :=
  ∀ (a : Mode) (s : State), AllValid s.cfg (touched s 1 [a]) →
    exec (.arb a) s = .next
      { s with rb := wrap64 (s.rb.toInt + (valueOf s 1 a).toInt)
               len := growAll s.len (touched s 1 [a])
               ptr := s.ptr + 2#64 }

/-- R73: opcode 99 sets the status to `Halted` and nothing else changes, in the instruction and in the step that fetches
it. That `ptr` stays on the halt word is R111's decision D12 (log entry 10), that the digits above the low two are ignored D7
(log entry 8). -/
def Obligations.HaltChangesOnlyTheStatus : Prop :=
  (∀ s : State, exec .hlt s = .next { s with status := .halted }) ∧
  ∀ s : State, s.status = .running → 0 ≤ s.ptr.toInt → s.ptr.toInt < s.len → s.len ≤ s.cfg.addrLimit →
    0 ≤ (s.mem.read s.ptr.toInt.toNat).toInt → (s.mem.read s.ptr.toInt.toNat).toNat % 100 = 99 →
    step s = .next { s with status := .halted }

/-- R78, R132, R135 (item 6), R136: an instruction whose operands are resolved ends at the first address, in the order
operand word then effective address, operand by operand, that does not pass the check: `InvalidAddress` with that address,
nothing changed but the record, the status and the growth before it. The order and the kept growth are the spec's
decisions D8, D9 and D10 (log entries 9 and 14). -/
def Obligations.FirstInvalidOperandAddressFaults : Prop :=
  ∀ (i : Instr) (s : State), i.wellFormed = true → (i.opcode = 3 → s.inq ≠ []) → FaultsAtFirstInvalid i s

/-! ### Frames -/

/-- Frame of `ADD`, `MUL`, `LT` and `EQ` (R79, R13, R15): in the next state only the word at the destination address, the
length, `ptr`, and (on a fault) the status and the record may differ. -/
def Obligations.StoringInstructionsFrame : Prop :=
  ∀ (i : Instr) (a b d : Mode) (s t : State),
    (i = .add a b d ∨ i = .mul a b d ∨ i = .lt a b d ∨ i = .eq a b d) → s.mem.wf = true → exec i s = .next t →
    t.rb = s.rb ∧ t.inq = s.inq ∧ t.outq = s.outq ∧ t.cfg = s.cfg ∧ s.len ≤ t.len ∧ SameStatusOrFault s t ∧
    ∀ x : Nat, eaOf s 3 d ≠ some (x : Int) → t.mem.read x = s.mem.read x

/-- Frame of `IN` (R95, R17): only the word at the destination address, the length, `ptr`, the queue's head, and the status
(suspension or fault) and the record (fault) may differ. -/
def Obligations.InputFrame : Prop :=
  ∀ (d : Mode) (s t : State), s.mem.wf = true → exec (.inp d) s = .next t →
    t.rb = s.rb ∧ t.outq = s.outq ∧ t.cfg = s.cfg ∧ s.len ≤ t.len ∧ (t.inq = s.inq ∨ t.inq = s.inq.tail) ∧
    (SameStatusOrFault s t ∨ (s.inq = [] ∧ t.status = .needsInput ∧ t.frec = s.frec)) ∧
    ∀ x : Nat, eaOf s 1 d ≠ some (x : Int) → t.mem.read x = s.mem.read x

/-- Frame of `OUT` (R96): the relative base, the input queue and every word of memory are unchanged, and the output
sequence keeps what it held. -/
def Obligations.OutputFrame : Prop :=
  ∀ (a : Mode) (s t : State), exec (.out a) s = .next t →
    t.rb = s.rb ∧ t.inq = s.inq ∧ t.cfg = s.cfg ∧ s.len ≤ t.len ∧ SameStatusOrFault s t ∧ SameMemory s t ∧
    (t.outq = s.outq ∨ t.outq = s.outq ++ [valueOf s 1 a])

/-- Frame of `JT` and `JF` (R100, R101): every register but `ptr`, the queues and every word of memory are unchanged. -/
def Obligations.JumpFrame : Prop :=
  ∀ (i : Instr) (c g : Mode) (s t : State), (i = .jt c g ∨ i = .jf c g) → exec i s = .next t →
    t.rb = s.rb ∧ t.inq = s.inq ∧ t.outq = s.outq ∧ t.cfg = s.cfg ∧ s.len ≤ t.len ∧ SameStatusOrFault s t ∧
    SameMemory s t

/-- Frame of `ARB` (R110): every word of memory and both queues are unchanged, and a fault leaves the relative base. -/
def Obligations.AdjustRelativeBaseFrame : Prop :=
  ∀ (a : Mode) (s t : State), exec (.arb a) s = .next t →
    t.inq = s.inq ∧ t.outq = s.outq ∧ t.cfg = s.cfg ∧ s.len ≤ t.len ∧ SameStatusOrFault s t ∧ SameMemory s t ∧
    (s.status ≠ .fault → t.status = .fault → t.rb = s.rb)

/-! ### The step -/

/-- R70: when the word at `ptr` decodes to `i`, the step of a running core is `exec i` in the state after the fetch, and in
the state itself when `ptr` is below the length. That the fetch grows is decision D24 (log entry 14). -/
def Obligations.StepRunsDecodedInstruction : Prop :=
  ∀ (s : State) (i : Instr), s.status = .running → validAddr s.cfg s.ptr.toInt = true →
    decode (s.mem.read s.ptr.toInt.toNat) = .ok i →
    step s = exec i (s.grow s.ptr.toInt.toNat) ∧ (s.ptr.toInt.toNat < s.len → step s = exec i s)

/-- R71, R132: a running core whose `ptr` is no valid address faults at the fetch, records no word and that address, and
changes nothing else. The upper bound is decision D3 (log entry 2). -/
def Obligations.FetchOfInvalidAddressFaults : Prop :=
  ∀ s : State, s.status = .running → (s.ptr.toInt < 0 ∨ (s.cfg.addrLimit : Int) ≤ s.ptr.toInt) →
    step s = .next { s with status := .fault, frec := some ⟨.invalidAddress, s.ptr, none, some s.ptr.toInt⟩ }

/-- R71, R131, R133: a running core whose word at `ptr` is no legal instruction faults with the cause of the verdict, records
the whole word, and changes nothing but the length. -/
def Obligations.IllegalWordFaults : Prop :=
  ∀ s : State, s.status = .running → validAddr s.cfg s.ptr.toInt = true →
    (decode (s.mem.read s.ptr.toInt.toNat) = .error .unknownOpcode →
      step s = .next { s with
        len := (s.grow s.ptr.toInt.toNat).len, status := .fault
        frec := some ⟨.unknownOpcode, s.ptr, some (s.mem.read s.ptr.toInt.toNat), none⟩ }) ∧
    (decode (s.mem.read s.ptr.toInt.toNat) = .error .invalidMode →
      step s = .next { s with
        len := (s.grow s.ptr.toInt.toNat).len, status := .fault
        frec := some ⟨.invalidMode, s.ptr, some (s.mem.read s.ptr.toInt.toNat), none⟩ })

/-- R70: a core has no next state by a step unless it is `Running`; the named answer is the model's choice (log entry 3). -/
def Obligations.NoStepUnlessRunning : Prop :=
  ∀ s : State,
    (s.status = .needsInput → step s = .fault .noStepNeedsInput) ∧
    (s.status = .halted → step s = .fault .noStepHalted) ∧
    (s.status = .fault → step s = .fault .noStepFault)

/-- R70, R61, R130: a running core always has a next state: every word is an instruction or one of the named faults, and no
instruction is without an effect. The faults of negative words and of bad mode digits are decisions D4 to D6 (log entry 15). -/
def Obligations.RunningCoreAlwaysSteps : Prop :=
  ∀ s : State, s.status = .running → ∃ t : State, step s = .next t

/-- R16: the relative base changes only by opcode 9, which adds its operand's value to it (here where the exact sum is a signed
64-bit integer); it is 0 at reset; no host operation but reset changes it; and it is the offset that relative-mode operands,
source and destination, add to their word. -/
def Obligations.RelativeBaseChangedOnlyByArb : Prop :=
  (∀ s t : State, step s = .next t → t.rb ≠ s.rb →
    0 ≤ (s.mem.read s.ptr.toInt.toNat).toInt ∧ (s.mem.read s.ptr.toInt.toNat).toNat % 100 = 9) ∧
  State.reset.rb = 0#64 ∧
  (∀ (c : Config) (p q : List Word) (s : State), newMachine c p q = some s → s.rb = 0#64) ∧
  (∀ (s : State) (v : Word), (pushInput v s).rb = s.rb ∧ (takeOutput s).2.rb = s.rb ∧ (drainOutputs s).2.rb = s.rb ∧
    (resume s).rb = s.rb) ∧
  (∀ (a : Mode) (s : State), AllValid s.cfg (touched s 1 [a]) → -(2 ^ 63) ≤ s.rb.toInt + (valueOf s 1 a).toInt →
    s.rb.toInt + (valueOf s 1 a).toInt < 2 ^ 63 →
    ∃ t : State, exec (.arb a) s = .next t ∧ t.rb.toInt = s.rb.toInt + (valueOf s 1 a).toInt) ∧
  ∀ (w : Option Word) (p : Word) (s : State), validAddr s.cfg (s.rb.toInt + p.toInt) = true →
    (∃ u : State, srcVal w .relative p s = .ok (s.mem.read (s.rb.toInt + p.toInt).toNat) u) ∧
    ∃ u : State, dstAddr w .relative p s = .ok (s.rb.toInt + p.toInt) u

/-- R16, R25: no step depends on the relative base but through a relative-mode operand or opcode 9: with neither, a step from
the same state under another base does the same, and keeps that base. -/
def Obligations.RelativeBaseReadOnlyByRelativeOperands : Prop :=
  ∀ (s t : State) (r : Word), step s = .next t →
    (∀ i : Instr, decode (s.mem.read s.ptr.toInt.toNat) = .ok i → Mode.relative ∉ i.modes ∧ i.opcode ≠ 9) →
    step { s with rb := r } = .next { t with rb := r }

/-- R18, R96: a step never removes, rewrites or reorders an output: it leaves the sequence or appends one value, and it
appends only by opcode 4. -/
def Obligations.StepOnlyAppendsOutputs : Prop :=
  ∀ s t : State, step s = .next t →
    t.outq = s.outq ∨
    ((s.mem.read s.ptr.toInt.toNat).toNat % 100 = 4 ∧ ∃ v : Word, t.outq = s.outq ++ [v])

/-- R17, R95: a step leaves the input queue or removes exactly its head, and removes it only by opcode 3. -/
def Obligations.StepConsumesInputsInOrder : Prop :=
  ∀ s t : State, step s = .next t →
    t.inq = s.inq ∨ ((s.mem.read s.ptr.toInt.toNat).toNat % 100 = 3 ∧ ∃ v : Word, s.inq = v :: t.inq)

/-- R11, R23(d), R22(b): a step never shrinks the memory and never changes the configuration. -/
def Obligations.StepNeverShrinksMemory : Prop :=
  ∀ s t : State, step s = .next t → s.len ≤ t.len ∧ t.cfg = s.cfg

/-- R10, R43: a word of memory changes in a step only when the instruction at `ptr` is one of the five that have a
destination, and then only at that destination's address. -/
def Obligations.StepWritesOnlyItsDestination : Prop :=
  ∀ (s t : State) (x : Nat), s.mem.wf = true → step s = .next t → t.mem.read x ≠ s.mem.read x →
    ∃ i : Instr, decode (s.mem.read s.ptr.toInt.toNat) = .ok i ∧
      ((i.opcode = 3 ∧ ∃ d, i.modes = [d] ∧ eaOf s 1 d = some (x : Int)) ∨
       (i.opcode ∈ [1, 2, 7, 8] ∧ ∃ a b d, i.modes = [a, b, d] ∧ eaOf s 3 d = some (x : Int)))

/-- R136: every fault is precise: the registers, the queues and every word of memory are as before the step, and the record
holds the unchanged `ptr`. That the length keeps its growth is decision D10 (log entry 14). -/
def Obligations.FaultsArePrecise : Prop :=
  ∀ s t : State, step s = .next t → t.status = .fault →
    t.mem = s.mem ∧ t.ptr = s.ptr ∧ t.rb = s.rb ∧ t.inq = s.inq ∧ t.outq = s.outq ∧ t.cfg = s.cfg ∧ s.len ≤ t.len ∧
    ∃ r : FaultRecord, t.frec = some r ∧ r.ptr = s.ptr

/-- R13: an instruction that is no halt and no taken jump, and neither suspends nor faults, leaves `ptr` exactly its width
further, as an integer: the sum never leaves 64 bits. That a jump not taken resolves its target, whose word bounds the sum, is
decision D8 (log entry 9). -/
def Obligations.PtrAdvancesExactlyByWidth : Prop :=
  ∀ (s t : State) (i : Instr), s.cfg.Legal → step s = .next t → t.status = .running →
    decode (s.mem.read s.ptr.toInt.toNat) = .ok i → (∀ c g : Mode, ¬ JumpTaken i c g s) →
    t.ptr.toInt = s.ptr.toInt + i.width

/-- R43, R156: a store is seen by the very next fetch: after any of the five storing instructions (`ADD`, `MUL`, `LT`, `EQ`,
`IN`) has stored the word that the next step fetches, that step runs the instruction the stored word decodes to, or takes the
fault of the word when it decodes to none (its record is decision D16, log entry 20). -/
def Obligations.StoreIsSeenByNextFetch : Prop :=
  ∀ (i : Instr) (s t : State) (v : Word), MemInv s → s.status = .running →
    storeOf i s = some (s.ptr.toInt + i.width, v) → AllValid s.cfg (touched s 1 i.modes) → exec i s = .next t →
    (∀ j : Instr, decode v = .ok j → step t = exec j t) ∧
    ∀ e : DecodeError, decode v = .error e → step t = .next (t.raise (causeOf e) (some v) none)

/-- R102: a taken jump, `JT` or `JF`, to a target that is no valid address completes; the next step faults at the fetch, with
that target and no word recorded. That the fetch reports it is decision D11 (log entry 16), the upper bound of the check D3
(log entry 2). -/
def Obligations.JumpToInvalidTargetFaultsAtNextFetch : Prop :=
  ∀ (i : Instr) (c g : Mode) (s : State), s.status = .running → JumpTaken i c g s →
    AllValid s.cfg (touched s 1 [c, g]) → validAddr s.cfg (valueOf s 2 g).toInt = false →
    ∃ t : State, exec i s = .next t ∧ t.status = .running ∧ t.ptr = valueOf s 2 g ∧
      step t = .next { t with
        status := .fault
        frec := some ⟨.invalidAddress, valueOf s 2 g, none, some (valueOf s 2 g).toInt⟩ }

/-! ### Reset and invariants -/

/-- R24: what reset leaves, with the empty program and no inputs. The status and the record are the spec's decisions D14
and D16 (log entry 6), the limit the model's (log entry 2). -/
def Obligations.ResetValues : Prop :=
  State.reset.ptr = 0#64 ∧ State.reset.rb = 0#64 ∧ State.reset.len = 0 ∧ State.reset.inq = [] ∧
  State.reset.outq = [] ∧ State.reset.status = .running ∧ State.reset.frec = none ∧
  (∀ a : Nat, State.reset.mem.read a = 0#64) ∧ newMachine Config.default [] [] = some State.reset

/-- R150: what reset with a program and an input batch leaves: every word of the program at its address, zeros after it, the
length that of the program, and the registers and queues as the rule says; a program longer than the limit is refused. The
status, the record and the refusal are decisions D14, D16 and D27 (log entries 6 and 17). -/
def Obligations.LoadedMachineState : Prop :=
  ∀ (c : Config) (p q : List Word),
    (c.addrLimit < p.length → newMachine c p q = none) ∧
    (p.length ≤ c.addrLimit → ∃ s : State, newMachine c p q = some s ∧ (∀ a : Nat, s.mem.read a = p.getD a 0#64) ∧
      s.mem.wf = true ∧ s.mem.below s.len = true ∧ s.len = p.length ∧ s.ptr = 0#64 ∧ s.rb = 0#64 ∧ s.inq = q ∧
      s.outq = [] ∧ s.status = .running ∧ s.frec = none ∧ s.cfg = c)

/-- R152: the first instruction executed after reset is the one at address 0. That the core is `Running` then, so that a step
is enabled, is the spec's decision D14 (log entry 6). -/
def Obligations.FirstInstructionIsAtZero : Prop :=
  ∀ (c : Config) (w : Word) (p q : List Word) (s : State) (i : Instr),
    newMachine c (w :: p) q = some s → decode w = .ok i → s.ptr = 0#64 ∧ step s = exec i s

/-- The invariant holds at reset. -/
def Obligations.ResetMeetsInvariant : Prop := CoreInv State.reset

/-- R23, with R19, R21 and R111: from every state that meets the invariant, a step gives a state that meets it: the memory
stays canonical and zero past its length, the length within the limit, the record is there exactly when the status is
`Fault` and fits its cause, a suspended core addresses an input instruction and a halted one a halt. The record's fields are decision D16 (log entry 20),
that a halted core's `ptr` stays is D12 (log entry 10), that a suspension leaves `ptr` and memory D26 (log entry 17). -/
def Obligations.StepKeepsInvariant : Prop := ∀ s t : State, CoreInv s → step s = .next t → CoreInv t

/-- R115, R119 to R121, R116, R150: the host's operations keep the invariant, and reset with a program that fits
establishes it. -/
def Obligations.HostOperationsKeepInvariant : Prop :=
  (∀ (s : State) (v : Word), CoreInv s →
    CoreInv (pushInput v s) ∧ CoreInv (takeOutput s).2 ∧ CoreInv (drainOutputs s).2 ∧ CoreInv (resume s)) ∧
  ∀ (c : Config) (p q : List Word) (s : State), c.Legal → newMachine c p q = some s → CoreInv s

/-- R116, R23: a run that returns leaves a state that meets the invariant, returns its status, and never returns
`Running`. -/
def Obligations.RunKeepsInvariantAndStops : Prop :=
  ∀ (n : Nat) (s t : State) (st : Status), CoreInv s → run n s = some (st, t) →
    CoreInv t ∧ st = t.status ∧ st ≠ .running

/-! ### The host's operations -/

/-- R119: a push appends at the tail and changes nothing else, in every status (decision D18, log entry 17). -/
def Obligations.PushAppendsAndChangesNothingElse : Prop :=
  ∀ (s : State) (v : Word), pushInput v s = { s with inq := s.inq ++ [v] } ∧ (pushInput v s).status = s.status

/-- R120, R121: taking one by one returns, in production order, exactly what draining returns, and leaves the same state;
one more take returns none. The end taken from is decision D17 (log entry 12). -/
def Obligations.DrainIsRepeatedTake : Prop :=
  ∀ s : State,
    takeMany s.outq.length s = ((drainOutputs s).1.map some, (drainOutputs s).2) ∧
    takeOutput (drainOutputs s).2 = (none, (drainOutputs s).2)

/-- R116: a run of a halted or faulted core returns its status at once and changes nothing (decision D13, log entry 11). -/
def Obligations.RunOfStoppedCoreDoesNothing : Prop :=
  ∀ (n : Nat) (s : State), (s.status = .halted ∨ s.status = .fault) → run n s = some (s.status, s)

/-- R116, R95: a run of a suspended core whose queue is still empty suspends again and changes nothing at all. That a
suspension leaves only the status is decision D26 (log entry 17). -/
def Obligations.RunIsIdempotentOnNeedsInput : Prop :=
  ∀ (n : Nat) (s : State), CoreInv s → s.status = .needsInput → s.inq = [] →
    run (n + 1) s = some (.needsInput, s)

/-- R95, R116, R119: after a push, the step of the resumed core consumes that value: it goes to the destination of the
input instruction at `ptr`, and `ptr` moves past it. -/
def Obligations.ResumedInputConsumesPushedValue : Prop :=
  ∀ (s : State) (v : Word) (d : Mode) (ea : Int), CoreInv s → s.status = .needsInput → s.inq = [] →
    instrAt s = some (.inp d) → eaOf s 1 d = some ea → AllValid s.cfg (touched s 1 [d]) →
    ∃ t : State, step (resume (pushInput v s)) = .next t ∧ t.mem.read ea.toNat = v ∧ t.ptr = s.ptr + 2#64 ∧
      t.inq = [] ∧ t.status = .running

/-- R137: `frec` and the status `Fault` are never cleared but by reset: a faulted core has no next state by a step, and the
other host operations keep both. That `run` returns at once with no effect is the spec's decision D13 (log entry 11), that a
push in `Fault` keeps the status D18 (log entry 17). -/
def Obligations.FaultIsNeverCleared : Prop :=
  ∀ (s : State) (r : FaultRecord) (v : Word) (n : Nat), s.status = .fault → s.frec = some r →
    (∀ t : State, step s ≠ .next t) ∧ run n s = some (.fault, s) ∧
    ((pushInput v s).status = .fault ∧ (pushInput v s).frec = some r) ∧
    ((takeOutput s).2.status = .fault ∧ (takeOutput s).2.frec = some r) ∧
    ((drainOutputs s).2.status = .fault ∧ (drainOutputs s).2.frec = some r)

/-- R117: a run that returns under some fuel returns the same under more. -/
def Obligations.RunFuelIsMonotone : Prop :=
  ∀ (n k : Nat) (s : State) (r : Status × State), run n s = some r → run (n + k) s = some r

/-- R117, R100: a running core whose step gives back the same state never returns from a run. -/
def Obligations.SelfLoopNeverReturns : Prop :=
  ∀ s : State, s.status = .running → step s = .next s → Diverges s

/-- R124: the diagnostic read returns the words `0 .. len - 1`, one word below the length, and none outside (decision D20, log
entry 17). -/
def Obligations.DiagnosticReadRule : Prop :=
  ∀ s : State,
    (readMemory s).length = s.len ∧
    (∀ a : Nat, a < s.len → (readMemory s)[a]? = some (s.mem.read a) ∧ readWord (a : Int) s = some (s.mem.read a)) ∧
    ∀ a : Int, (a < 0 ∨ (s.len : Int) ≤ a) → readWord a s = none
end

