-- ==== Sys2Proof/Laws/Memory.lean ====
section
/-! SUPPORT. The laws of one memory: a read after a write, and the canonical form, which every memory operation
keeps. -/

namespace Sys2Proof.Machine

/-- In a memory canonical from `lo` on, an address below `lo` reads 0. -/
theorem Memory.read_below {m : Memory} : ∀ {lo a : Nat}, m.wfFrom lo = true → a < lo → m.read a = 0#64 := by
  induction m with
  | nil => intros; rfl
  | cons c t ih =>
    obtain ⟨b, v⟩ := c
    intro lo a h ha
    simp only [Memory.wfFrom, Bool.and_eq_true, decide_eq_true_eq] at h
    have hb : a ≠ b := by omega
    simp only [Memory.read, hb, if_false]
    exact ih h.2 (by omega)

theorem Memory.wfFrom_mono {m : Memory} {lo lo' : Nat} (h : m.wfFrom lo = true) (hl : lo' ≤ lo) :
    m.wfFrom lo' = true := by
  cases m with
  | nil => rfl
  | cons c t =>
    simp only [Memory.wfFrom, Bool.and_eq_true, decide_eq_true_eq] at h ⊢
    exact ⟨⟨by omega, h.1.2⟩, h.2⟩

/-- A write keeps the canonical form. -/
theorem Memory.wfFrom_write {m : Memory} {a : Nat} {v : Word} :
    ∀ {lo : Nat}, m.wfFrom lo = true → lo ≤ a → (m.write a v).wfFrom lo = true := by
  induction m with
  | nil =>
    intro lo _ ha
    by_cases hv : v = 0#64 <;> simp [Memory.write, Memory.wfFrom, hv, ha]
  | cons c t ih =>
    obtain ⟨b, u⟩ := c
    intro lo h ha
    simp only [Memory.wfFrom, Bool.and_eq_true, decide_eq_true_eq] at h
    obtain ⟨⟨hlo, hu⟩, ht⟩ := h
    simp only [Memory.write]
    split
    · next hab =>
      by_cases hv : v = 0#64
      · simp [Memory.wfFrom, hv, hlo, hu, ht]
      · simp only [if_neg hv, Memory.wfFrom, Bool.and_eq_true, decide_eq_true_eq]
        exact ⟨⟨ha, hv⟩, ⟨by omega, hu⟩, ht⟩
    · split
      · next hab =>
        subst hab
        by_cases hv : v = 0#64
        · simp only [if_pos hv]; exact wfFrom_mono ht (by omega)
        · simp [Memory.wfFrom, hv, hlo, ht]
      · simp only [Memory.wfFrom, Bool.and_eq_true, decide_eq_true_eq]
        exact ⟨⟨hlo, hu⟩, ih ht (by omega)⟩

theorem Memory.wf_write {m : Memory} {a : Nat} {v : Word} (h : m.wf = true) : (m.write a v).wf = true :=
  wfFrom_write h (Nat.zero_le a)

theorem Memory.read_write_from {m : Memory} {a : Nat} {v : Word} :
    ∀ {lo : Nat} (b : Nat), m.wfFrom lo = true → (m.write a v).read b = if b = a then v else m.read b := by
  induction m with
  | nil =>
    intro lo b _
    by_cases hv : v = 0#64 <;> simp [Memory.write, Memory.read, hv]
  | cons c t ih =>
    obtain ⟨x, u⟩ := c
    intro lo b h
    simp only [Memory.wfFrom, Bool.and_eq_true, decide_eq_true_eq] at h
    obtain ⟨⟨_, _⟩, ht⟩ := h
    have hrest : a ≤ x → Memory.read t a = 0#64 := fun hax => read_below ht (Nat.lt_succ_of_le hax)
    simp only [Memory.write]
    split
    · next hab =>
      by_cases hv : v = 0#64
      · by_cases hb : b = a
        · subst hb
          have hne : b ≠ x := by omega
          simp [hv, Memory.read, hne, hrest (by omega)]
        · simp [hv, hb]
      · simp [hv, Memory.read]
    · split
      · next hab =>
        subst hab
        by_cases hb : b = a
        · subst hb
          by_cases hv : v = 0#64
          · simp [hv, hrest]
          · simp [hv, Memory.read]
        · by_cases hv : v = 0#64 <;> simp [hv, Memory.read, hb]
      · next hax =>
        simp only [Memory.read, ih b ht]
        by_cases hb : b = a
        · subst hb; simp [hax]
        · simp [hb]

/-- What every address reads after a write (canonical memories). -/
theorem Memory.read_write {m : Memory} (h : m.wf = true) (a b : Nat) (v : Word) :
    (m.write a v).read b = if b = a then v else m.read b := read_write_from b h

/-- A read after a write to the same address gives the value written. -/
theorem Memory.read_write_same {m : Memory} (h : m.wf = true) (a : Nat) (v : Word) : (m.write a v).read a = v := by
  rw [read_write h, if_pos rfl]

/-- A write leaves every other address alone. -/
theorem Memory.read_write_other {m : Memory} (h : m.wf = true) {a b : Nat} (hne : b ≠ a) (v : Word) :
    (m.write a v).read b = m.read b := by
  rw [read_write h, if_neg hne]

theorem Memory.below_write {m : Memory} {n a : Nat} {v : Word} (h : m.below n = true) (ha : a < n) :
    (m.write a v).below n = true := by
  induction m with
  | nil => by_cases hv : v = 0#64 <;> simp [Memory.write, Memory.below, hv, ha]
  | cons c t ih =>
    obtain ⟨b, u⟩ := c
    simp only [Memory.below, List.all_cons, Bool.and_eq_true, decide_eq_true_eq] at h ih ⊢
    simp only [Memory.write]
    split
    · by_cases hv : v = 0#64 <;> simp only [hv, if_true, if_false, List.all_cons, Bool.and_eq_true, decide_eq_true_eq]
      · exact h
      · exact ⟨ha, h⟩
    · split
      · by_cases hv : v = 0#64 <;> simp only [hv, if_true, if_false, List.all_cons, Bool.and_eq_true, decide_eq_true_eq]
        · exact h.2
        · exact ⟨ha, h.2⟩
      · simp only [List.all_cons, Bool.and_eq_true, decide_eq_true_eq]
        exact ⟨h.1, ih h.2⟩

theorem Memory.below_mono {m : Memory} {n n' : Nat} (h : m.below n = true) (hn : n ≤ n') : m.below n' = true := by
  simp only [Memory.below, List.all_eq_true, decide_eq_true_eq] at h ⊢
  intro c hc
  exact Nat.lt_of_lt_of_le (h c hc) hn

/-- R23(b): a cell at or past the bound reads 0. -/
theorem Memory.read_past {m : Memory} {n a : Nat} (h : m.below n = true) (ha : n ≤ a) : m.read a = 0#64 := by
  induction m with
  | nil => rfl
  | cons c t ih =>
    obtain ⟨b, v⟩ := c
    simp only [Memory.below, List.all_cons, Bool.and_eq_true, decide_eq_true_eq] at h ih
    have hb : a ≠ b := by omega
    simp only [Memory.read, hb, if_false]
    exact ih h.2

theorem Memory.wfFrom_load (p : List Word) : ∀ {a lo : Nat}, lo ≤ a → (Memory.load a p).wfFrom lo = true := by
  induction p with
  | nil => intros; rfl
  | cons v t ih =>
    intro a lo h
    by_cases hv : v = 0#64
    · simpa [Memory.load, hv] using ih (by omega)
    · simpa [Memory.load, hv, Memory.wfFrom, h] using ih (Nat.le_refl (a + 1))

theorem Memory.below_load (p : List Word) : ∀ {a n : Nat}, a + p.length ≤ n → (Memory.load a p).below n = true := by
  induction p with
  | nil => intros; rfl
  | cons v t ih =>
    intro a n h
    simp only [List.length_cons] at h
    have := ih (a := a + 1) (n := n) (by omega)
    by_cases hv : v = 0#64
    · simpa [Memory.load, hv] using this
    · simp only [Memory.load, hv, if_false, Memory.below, List.all_cons, Bool.and_eq_true, decide_eq_true_eq]
      exact ⟨by omega, this⟩

/-- What a loaded program reads: word `i` at address `a + i`. -/
theorem Memory.read_load (p : List Word) : ∀ (a b : Nat), a ≤ b → (Memory.load a p).read b = p.getD (b - a) 0#64 := by
  induction p with
  | nil => intros; rfl
  | cons v t ih =>
    intro a b h
    by_cases hb : b = a
    · subst hb
      by_cases hv : v = 0#64
      · simpa [Memory.load, hv] using read_below (wfFrom_load t (Nat.le_refl (b + 1))) (Nat.lt_succ_self b)
      · simp [Memory.load, hv, Memory.read]
    · have hs : b - a = (b - (a + 1)) + 1 := by omega
      have ht := ih (a + 1) b (by omega)
      rw [hs, List.getD_cons_succ, ← ht]
      by_cases hv : v = 0#64 <;> simp [Memory.load, hv, Memory.read, hb]

theorem State.reset_mem_wf : State.reset.mem.wf = true := rfl

end Sys2Proof.Machine
end

