-- ==== Sys2Proof/Laws/State.lean ====
section
/-! SUPPORT. Each named update of State, field by field (all true by rfl), so that no later proof unfolds one. -/

namespace Sys2Proof.Machine

@[simp] theorem State.grow_mem (s : State) (a : Nat) : (s.grow a).mem = s.mem := rfl
@[simp] theorem State.grow_len (s : State) (a : Nat) : (s.grow a).len = growLen s.len a := rfl
@[simp] theorem State.grow_ptr (s : State) (a : Nat) : (s.grow a).ptr = s.ptr := rfl
@[simp] theorem State.grow_rb (s : State) (a : Nat) : (s.grow a).rb = s.rb := rfl
@[simp] theorem State.grow_inq (s : State) (a : Nat) : (s.grow a).inq = s.inq := rfl
@[simp] theorem State.grow_outq (s : State) (a : Nat) : (s.grow a).outq = s.outq := rfl
@[simp] theorem State.grow_status (s : State) (a : Nat) : (s.grow a).status = s.status := rfl
@[simp] theorem State.grow_frec (s : State) (a : Nat) : (s.grow a).frec = s.frec := rfl
@[simp] theorem State.grow_cfg (s : State) (a : Nat) : (s.grow a).cfg = s.cfg := rfl

section
variable (s : State) (c : Cause) (w : Option Word) (a : Option Int)
@[simp] theorem State.raise_mem : (s.raise c w a).mem = s.mem := rfl
@[simp] theorem State.raise_len : (s.raise c w a).len = s.len := rfl
@[simp] theorem State.raise_ptr : (s.raise c w a).ptr = s.ptr := rfl
@[simp] theorem State.raise_rb : (s.raise c w a).rb = s.rb := rfl
@[simp] theorem State.raise_inq : (s.raise c w a).inq = s.inq := rfl
@[simp] theorem State.raise_outq : (s.raise c w a).outq = s.outq := rfl
@[simp] theorem State.raise_status : (s.raise c w a).status = .fault := rfl
@[simp] theorem State.raise_frec : (s.raise c w a).frec = some ⟨c, s.ptr, w, a⟩ := rfl
@[simp] theorem State.raise_cfg : (s.raise c w a).cfg = s.cfg := rfl
end

@[simp] theorem State.advance_mem (s : State) (k : Nat) : (s.advance k).mem = s.mem := rfl
@[simp] theorem State.advance_len (s : State) (k : Nat) : (s.advance k).len = s.len := rfl
@[simp] theorem State.advance_ptr (s : State) (k : Nat) :
    (s.advance k).ptr = BitVec.ofInt 64 (s.ptr.toInt + k) := rfl
@[simp] theorem State.advance_rb (s : State) (k : Nat) : (s.advance k).rb = s.rb := rfl
@[simp] theorem State.advance_inq (s : State) (k : Nat) : (s.advance k).inq = s.inq := rfl
@[simp] theorem State.advance_outq (s : State) (k : Nat) : (s.advance k).outq = s.outq := rfl
@[simp] theorem State.advance_status (s : State) (k : Nat) : (s.advance k).status = s.status := rfl
@[simp] theorem State.advance_frec (s : State) (k : Nat) : (s.advance k).frec = s.frec := rfl
@[simp] theorem State.advance_cfg (s : State) (k : Nat) : (s.advance k).cfg = s.cfg := rfl

/-- The instruction word does not depend on the length (growth is transparent, R32). -/
@[simp] theorem State.instrWord_len (s : State) (n : Nat) : { s with len := n }.instrWord = s.instrWord := rfl
@[simp] theorem State.instrWord_grow (s : State) (a : Nat) : (s.grow a).instrWord = s.instrWord := rfl

end Sys2Proof.Machine
end

