-- ==== Sys2Proof/Laws/Ops.lean ====
section
/-! SUPPORT. What each primitive of Machine/Ops.lean can do, said once. -/

namespace Sys2Proof.Machine

@[simp] theorem Acc.bind_ok {α β : Type} (v : α) (s : State) (k : α → State → Acc β) :
    (Acc.ok v s).bind k = k v s := rfl
@[simp] theorem Acc.bind_raised {α β : Type} (s : State) (k : α → State → Acc β) :
    (Acc.raised s).bind k = .raised s := rfl
@[simp] theorem Acc.done_ok {α : Type} (v : α) (s : State) (k : α → State → Host.Outcome State Fault Refusal) :
    (Acc.ok v s).done k = k v s := rfl
@[simp] theorem Acc.done_raised {α : Type} (s : State) (k : α → State → Host.Outcome State Fault Refusal) :
    (Acc.raised s).done k = .next s := rfl

theorem validAddr_iff {c : Config} {a : Int} : validAddr c a = true ↔ 0 ≤ a ∧ a < c.addrLimit := by
  simp [validAddr]

/-- `len` never shrinks by growth, and holds the address grown for. -/
theorem le_growLen (len a : Nat) : len ≤ growLen len a := by
  unfold growLen; split <;> omega

theorem lt_growLen (len a : Nat) : a < growLen len a := by
  unfold growLen; split <;> omega

theorem growLen_of_lt {len a : Nat} (h : a < len) : growLen len a = len := by
  unfold growLen; rw [if_neg (by omega)]

theorem growLen_le {len a n : Nat} (h : len ≤ n) (ha : a < n) : growLen len a ≤ n := by
  unfold growLen; split <;> omega

theorem growAll_append (len : Nat) (as bs : List Int) : growAll len (as ++ bs) = growAll (growAll len as) bs := by
  induction as generalizing len with
  | nil => rfl
  | cons a t ih => exact ih _

theorem le_growAll (len : Nat) (as : List Int) : len ≤ growAll len as := by
  induction as generalizing len with
  | nil => exact Nat.le_refl _
  | cons a t ih => exact Nat.le_trans (le_growLen len a.toNat) (ih _)

theorem growAll_le {c : Config} {as : List Int} :
    ∀ {len : Nat}, AllValid c as → len ≤ c.addrLimit → growAll len as ≤ c.addrLimit := by
  induction as with
  | nil => intro len _ h; exact h
  | cons a t ih =>
    intro len hv hl
    have ha := validAddr_iff.1 (hv a List.mem_cons_self)
    exact ih (fun b hb => hv b (List.mem_cons_of_mem a hb)) (growLen_le hl (by omega))

/-- A touched address lies below the length after it. -/
theorem lt_growAll {as : List Int} {a : Int} : ∀ {len : Nat}, a ∈ as → a.toNat < growAll len as := by
  induction as with
  | nil => intro _ h; cases h
  | cons b t ih =>
    intro len h
    rcases List.mem_cons.1 h with rfl | h
    · exact Nat.lt_of_lt_of_le (lt_growLen len a.toNat) (le_growAll _ t)
    · exact ih h

theorem checkAddr_ok {w : Option Word} {a : Int} {s : State} (h : validAddr s.cfg a = true) :
    checkAddr w a s = .ok a.toNat s := by
  simp [checkAddr, h]

theorem checkAddr_bad {w : Option Word} {a : Int} {s : State} (h : validAddr s.cfg a = false) :
    checkAddr w a s = .raised (s.raise .invalidAddress w (some a)) := by
  simp [checkAddr, h]

/-- `MemRead` of a valid address (R34). -/
theorem memRead_ok {w : Option Word} {a : Int} {s : State} (h : validAddr s.cfg a = true) :
    memRead w a s = .ok (s.mem.read a.toNat) (s.grow a.toNat) := by
  simp [memRead, checkAddr_ok h]

/-- `MemRead` of an invalid address (R33, R34). -/
theorem memRead_bad {w : Option Word} {a : Int} {s : State} (h : validAddr s.cfg a = false) :
    memRead w a s = .raised (s.raise .invalidAddress w (some a)) := by
  simp [memRead, checkAddr_bad h]

/-- `MemWrite` to a valid address (R35). -/
theorem memWrite_ok {w : Option Word} {a : Int} {v : Word} {s : State} (h : validAddr s.cfg a = true) :
    memWrite w a v s = .ok () { s.grow a.toNat with mem := s.mem.write a.toNat v } := by
  simp [memWrite, checkAddr_ok h]

end Sys2Proof.Machine
end

