-- ==== Sys2Proof/Laws/Operands.lean ====
section
/-! SUPPORT. Operand resolution, said once: when every touched address is valid it answers the operands that
`valueOf` and `eaOf` name, in the state whose length alone has grown; at the first invalid address it raises. -/

namespace Sys2Proof.Machine

/-- Operands do not depend on the length (growth is transparent, R32). -/
@[simp] theorem operandAt_len (s : State) (n k : Nat) : operandAt { s with len := n } k = operandAt s k := rfl
@[simp] theorem eaOf_len (s : State) (n k : Nat) (m : Mode) : eaOf { s with len := n } k m = eaOf s k m := rfl
@[simp] theorem valueOf_len (s : State) (n k : Nat) (m : Mode) : valueOf { s with len := n } k m = valueOf s k m := rfl
@[simp] theorem touchedBy_len (s : State) (n k : Nat) (m : Mode) :
    touchedBy { s with len := n } k m = touchedBy s k m := rfl

theorem touched_one (s : State) (k : Nat) (m : Mode) : touched s k [m] = touchedBy s k m := by
  simp [touched]

theorem touched_two (s : State) (k : Nat) (a b : Mode) :
    touched s k [a, b] = touchedBy s k a ++ touchedBy s (k + 1) b := by
  simp [touched]

theorem touched_three (s : State) (k : Nat) (a b c : Mode) :
    touched s k [a, b, c] = touchedBy s k a ++ (touchedBy s (k + 1) b ++ touchedBy s (k + 2) c) := by
  simp [touched]

/-- The raised state of an address fault whose record holds the word `w`. -/
def faultAt (w : Option Word) (s : State) (pre : List Int) (a : Int) : State :=
  { s with len := growAll s.len pre, status := .fault, frec := some ⟨.invalidAddress, s.ptr, w, some a⟩ }

theorem faultAt_instrWord (s : State) (pre : List Int) (a : Int) :
    faultAt s.instrWord s pre a = addressFault s pre a := rfl

theorem faultAt_grown (w : Option Word) (s : State) (done pre : List Int) (a : Int) :
    faultAt w { s with len := growAll s.len done } pre a = faultAt w s (done ++ pre) a := by
  simp [faultAt, growAll_append]

theorem eaOf_dest {m : Mode} (h : m.isDest = true) (s : State) (k : Nat) : ∃ ea, eaOf s k m = some ea := by
  cases m with
  | position => exact ⟨_, rfl⟩
  | immediate => cases h
  | relative => exact ⟨_, rfl⟩

/-- Either every address is valid, or there is a first invalid one. -/
theorem allValid_or_firstInvalid (c : Config) (as : List Int) :
    AllValid c as ∨ ∃ pre a, FirstInvalid c as pre a := by
  induction as with
  | nil => exact .inl fun a h => by cases h
  | cons b t ih =>
    by_cases hb : validAddr c b = true
    · rcases ih with h | ⟨pre, a, hp, hv, ha⟩
      · exact .inl (List.forall_mem_cons.2 ⟨hb, h⟩)
      · refine .inr ⟨b :: pre, a, ?_, ?_, ha⟩
        · exact (List.prefix_cons_inj b).2 hp
        · exact List.forall_mem_cons.2 ⟨hb, hv⟩
    · exact .inr ⟨[], b, ⟨t, rfl⟩, List.forall_mem_nil _, by simpa using hb⟩

theorem firstInvalid_append {c : Config} {as bs pre : List Int} {a : Int} (h : FirstInvalid c (as ++ bs) pre a) :
    FirstInvalid c as pre a ∨ (AllValid c as ∧ ∃ pre', pre = as ++ pre' ∧ FirstInvalid c bs pre' a) := by
  induction as generalizing pre with
  | nil => exact .inr ⟨List.forall_mem_nil _, pre, rfl, h⟩
  | cons b t ih =>
    obtain ⟨hp, hv, ha⟩ := h
    cases pre with
    | nil =>
      left
      rw [List.nil_append, List.cons_append] at hp
      obtain rfl : a = b := by simpa using List.cons_prefix_cons.1 hp |>.1
      exact ⟨⟨t, rfl⟩, hv, ha⟩
    | cons p ps =>
      rw [List.cons_append, List.cons_append] at hp
      obtain ⟨hpb, hp'⟩ := List.cons_prefix_cons.1 hp
      subst hpb
      have hp0 : validAddr c p = true := hv p List.mem_cons_self
      have hps : AllValid c ps := fun x hx => hv x (List.mem_cons_of_mem p hx)
      rcases ih ⟨hp', hps, ha⟩ with ⟨h1, h2, h3⟩ | ⟨h1, pre', rfl, h3⟩
      · exact .inl ⟨(List.prefix_cons_inj p).2 h1, hv, h3⟩
      · refine .inr ⟨?_, pre', rfl, h3⟩
        exact List.forall_mem_cons.2 ⟨hp0, h1⟩

theorem operandWord_ok {w : Option Word} {k : Nat} {s : State} (h : validAddr s.cfg (s.ptr.toInt + k) = true) :
    operandWord w k s = .ok (operandAt s k) (s.grow (s.ptr.toInt + k).toNat) := memRead_ok h

theorem srcVal_some {w : Option Word} {m : Mode} {p : Word} {s : State} {ea : Int} (h : effAddr m p s.rb = some ea) :
    srcVal w m p s = memRead w ea s := by
  unfold srcVal; rw [h]

theorem dstAddr_some {w : Option Word} {m : Mode} {p : Word} {s : State} {ea : Int}
    (h : effAddr m p s.rb = some ea) :
    dstAddr w m p s = (checkAddr w ea s).bind fun n s => .ok ea (s.grow n) := by
  unfold dstAddr; rw [h]

/-- `SrcVal` with its word fetch (R75, R76), all addresses valid. -/
theorem source_ok {w : Option Word} {k : Nat} {m : Mode} {s : State} (h : AllValid s.cfg (touchedBy s k m)) :
    source w k m s = .ok (valueOf s k m) { s with len := growAll s.len (touchedBy s k m) } := by
  have h1 : validAddr s.cfg (s.ptr.toInt + k) = true := h _ List.mem_cons_self
  cases m with
  | immediate => simp [source, operandWord, memRead_ok h1, srcVal, effAddr, valueOf, eaOf, operandAt, touchedBy,
      growAll, State.grow]
  | position =>
    have h2 : validAddr s.cfg (operandAt s k).toInt = true := h _ (by simp [touchedBy, eaOf, effAddr])
    simp only [operandAt] at h2
    simp [source, operandWord, memRead_ok h1, srcVal, effAddr, valueOf, eaOf, operandAt, touchedBy,
      growAll, State.grow, memRead_ok, h2]
  | relative =>
    have h2 : validAddr s.cfg (s.rb.toInt + (operandAt s k).toInt) = true := h _ (by simp [touchedBy, eaOf, effAddr])
    simp only [operandAt] at h2
    simp [source, operandWord, memRead_ok h1, srcVal, effAddr, valueOf, eaOf, operandAt, touchedBy,
      growAll, State.grow, memRead_ok, h2]

theorem firstInvalid_touchedBy {s : State} {k : Nat} {m : Mode} {pre : List Int} {a : Int}
    (h : FirstInvalid s.cfg (touchedBy s k m) pre a) :
    (pre = [] ∧ a = s.ptr.toInt + k ∧ validAddr s.cfg a = false) ∨
    (validAddr s.cfg (s.ptr.toInt + k) = true ∧ pre = [s.ptr.toInt + k] ∧ eaOf s k m = some a ∧
      validAddr s.cfg a = false) := by
  obtain ⟨hp, hv, ha⟩ := h
  cases pre with
  | nil =>
    left
    refine ⟨rfl, ?_, ha⟩
    simpa [touchedBy] using (List.cons_prefix_cons.1 hp).1
  | cons p ps =>
    right
    rw [List.cons_append, touchedBy] at hp
    obtain ⟨rfl, hp⟩ := List.cons_prefix_cons.1 hp
    refine ⟨hv _ List.mem_cons_self, ?_, ?_, ha⟩ <;> cases he : eaOf s k m with
    | none => simp [he] at hp
    | some e =>
      rw [he, Option.toList_some] at hp
      cases ps with
      | nil => first | rfl | simpa [eq_comm] using hp
      | cons q qs => simp at hp

/-- `SrcVal` with its word fetch, at the first invalid address. -/
theorem source_bad {w : Option Word} {k : Nat} {m : Mode} {s : State} {pre : List Int} {a : Int}
    (h : FirstInvalid s.cfg (touchedBy s k m) pre a) : source w k m s = .raised (faultAt w s pre a) := by
  rcases firstInvalid_touchedBy h with ⟨rfl, rfl, ha⟩ | ⟨h1, rfl, he, ha⟩
  · simp [source, operandWord, memRead_bad ha, faultAt, growAll, State.raise]
  · simp only [source, operandWord_ok h1, Acc.bind_ok]
    rw [srcVal_some (s := s.grow (s.ptr.toInt + k).toNat) he, memRead_bad (s := s.grow (s.ptr.toInt + k).toNat) ha]
    rfl

/-- `DstAddr` with its word fetch (R75, R77), all addresses valid. -/
theorem dest_ok {w : Option Word} {k : Nat} {m : Mode} {s : State} {ea : Int} (he : eaOf s k m = some ea)
    (h : AllValid s.cfg (touchedBy s k m)) :
    dest w k m s = .ok ea { s with len := growAll s.len (touchedBy s k m) } := by
  have h1 : validAddr s.cfg (s.ptr.toInt + k) = true := h _ List.mem_cons_self
  have h2 : validAddr s.cfg ea = true := h _ (by simp [touchedBy, he])
  simp only [dest, operandWord_ok h1, Acc.bind_ok]
  rw [dstAddr_some (s := s.grow (s.ptr.toInt + k).toNat) he, checkAddr_ok (s := s.grow (s.ptr.toInt + k).toNat) h2]
  simp [touchedBy, he, growAll, State.grow]

/-- `DstAddr` with its word fetch, at the first invalid address. -/
theorem dest_bad {w : Option Word} {k : Nat} {m : Mode} {s : State} {pre : List Int} {a : Int}
    (h : FirstInvalid s.cfg (touchedBy s k m) pre a) :
    dest w k m s = .raised (faultAt w s pre a) := by
  rcases firstInvalid_touchedBy h with ⟨rfl, rfl, ha⟩ | ⟨h1, rfl, he, ha⟩
  · simp [dest, operandWord, memRead_bad ha, faultAt, growAll, State.raise]
  · simp only [dest, operandWord_ok h1, Acc.bind_ok]
    rw [dstAddr_some (s := s.grow (s.ptr.toInt + k).toNat) he, checkAddr_bad (s := s.grow (s.ptr.toInt + k).toNat) ha]
    rfl

/-- Format F2, all addresses valid. -/
theorem resolveSS_ok {a b : Mode} {s : State} (h : AllValid s.cfg (touched s 1 [a, b])) :
    resolveSS a b s = .ok (valueOf s 1 a, valueOf s 2 b) { s with len := growAll s.len (touched s 1 [a, b]) } := by
  rw [touched_two] at h ⊢
  have h1 : AllValid s.cfg (touchedBy s 1 a) := fun x hx => h x (List.mem_append_left _ hx)
  have h2 : AllValid s.cfg (touchedBy s 2 b) := fun x hx => h x (List.mem_append_right _ hx)
  simp only [resolveSS, source_ok h1, Acc.bind_ok]
  rw [source_ok (s := { s with len := growAll s.len (touchedBy s 1 a) }) h2]
  simp [growAll_append]

/-- Format F2, at the first invalid address. -/
theorem resolveSS_bad {a b : Mode} {s : State} {pre : List Int} {e : Int}
    (h : FirstInvalid s.cfg (touched s 1 [a, b]) pre e) : resolveSS a b s = .raised (addressFault s pre e) := by
  rw [touched_two] at h
  rcases firstInvalid_append h with h1 | ⟨h1, pre', rfl, h2⟩
  · simp [resolveSS, source_bad h1, faultAt_instrWord]
  · simp only [resolveSS, source_ok h1, Acc.bind_ok]
    rw [source_bad (s := { s with len := growAll s.len (touchedBy s 1 a) }) h2]
    simp [faultAt_grown, faultAt_instrWord]

/-- Format F3, all addresses valid. -/
theorem resolveSSD_ok {a b d : Mode} {s : State} {ea : Int} (he : eaOf s 3 d = some ea)
    (h : AllValid s.cfg (touched s 1 [a, b, d])) :
    resolveSSD a b d s =
      .ok (valueOf s 1 a, valueOf s 2 b, ea) { s with len := growAll s.len (touched s 1 [a, b, d]) } := by
  rw [touched_three] at h ⊢
  have h1 : AllValid s.cfg (touchedBy s 1 a) := fun x hx => h x (List.mem_append_left _ hx)
  have h2 : AllValid s.cfg (touchedBy s 2 b) :=
    fun x hx => h x (List.mem_append_right _ (List.mem_append_left _ hx))
  have h3 : AllValid s.cfg (touchedBy s 3 d) :=
    fun x hx => h x (List.mem_append_right _ (List.mem_append_right _ hx))
  simp only [resolveSSD, source_ok h1, Acc.bind_ok]
  rw [source_ok (s := { s with len := growAll s.len (touchedBy s 1 a) }) h2]
  simp only [Acc.bind_ok, touchedBy_len]
  rw [dest_ok (s := { s with len := growAll (growAll s.len (touchedBy s 1 a)) (touchedBy s 2 b) }) he h3]
  simp [growAll_append]

/-- Format F3, at the first invalid address. -/
theorem resolveSSD_bad {a b d : Mode} {s : State} {pre : List Int} {e : Int}
    (h : FirstInvalid s.cfg (touched s 1 [a, b, d]) pre e) :
    resolveSSD a b d s = .raised (addressFault s pre e) := by
  rw [touched_three] at h
  rcases firstInvalid_append h with h1 | ⟨h1, pre', rfl, h2⟩
  · simp [resolveSSD, source_bad h1, faultAt_instrWord]
  · simp only [resolveSSD, source_ok h1, Acc.bind_ok]
    rcases firstInvalid_append h2 with h4 | ⟨h4, pre'', rfl, h3⟩
    · rw [source_bad (s := { s with len := growAll s.len (touchedBy s 1 a) }) h4]
      simp [faultAt_grown, faultAt_instrWord]
    · rw [source_ok (s := { s with len := growAll s.len (touchedBy s 1 a) }) h4]
      simp only [Acc.bind_ok, touchedBy_len, ← growAll_append]
      rw [dest_bad (s := { s with len := growAll s.len (touchedBy s 1 a ++ touchedBy s 2 b) }) h3]
      rw [faultAt_grown, faultAt_instrWord, List.append_assoc]
      rfl

end Sys2Proof.Machine
end

