-- ==== Sys2Proof/Laws/PerInstr.lean ====
section
/-! SUPPORT. Facts stated instruction by instruction. -/

namespace Sys2Proof.Laws.EncodingShape

/-- R50, R54, R63: the encoding of an instruction is below 10^5 and has the row's two opcode digits, and the
instruction is at most four words wide. -/
def Statement (i : Instr) : Prop :=
  encodeNat i < 100000 ∧ opcodeOf (encodeNat i) = i.opcode ∧ (encode i).toNat = encodeNat i ∧ i.width ≤ 4

theorem add (a b dest : Mode) : Statement (.add a b dest) := by
  cases a <;> cases b <;> cases dest <;> exact ⟨by decide, rfl, rfl, by decide⟩
theorem mul (a b dest : Mode) : Statement (.mul a b dest) := by
  cases a <;> cases b <;> cases dest <;> exact ⟨by decide, rfl, rfl, by decide⟩
theorem inp (dest : Mode) : Statement (.inp dest) := by cases dest <;> exact ⟨by decide, rfl, rfl, by decide⟩
theorem out (a : Mode) : Statement (.out a) := by cases a <;> exact ⟨by decide, rfl, rfl, by decide⟩
theorem jt (cond target : Mode) : Statement (.jt cond target) := by
  cases cond <;> cases target <;> exact ⟨by decide, rfl, rfl, by decide⟩
theorem jf (cond target : Mode) : Statement (.jf cond target) := by
  cases cond <;> cases target <;> exact ⟨by decide, rfl, rfl, by decide⟩
theorem lt (a b dest : Mode) : Statement (.lt a b dest) := by
  cases a <;> cases b <;> cases dest <;> exact ⟨by decide, rfl, rfl, by decide⟩
theorem eq (a b dest : Mode) : Statement (.eq a b dest) := by
  cases a <;> cases b <;> cases dest <;> exact ⟨by decide, rfl, rfl, by decide⟩
theorem arb (a : Mode) : Statement (.arb a) := by cases a <;> exact ⟨by decide, rfl, rfl, by decide⟩
theorem hlt : Statement .hlt := ⟨by decide, rfl, rfl, by decide⟩

end Sys2Proof.Laws.EncodingShape
end

