-- ==== Sys2Proof/Laws/Shapes.lean ====
section
/-! SUPPORT. The two shared instruction shapes (Machine/Arith.lean `binaryOp`, Machine/Jumps.lean `jumpOp`) and the
fetch, said once. -/

namespace Sys2Proof.Machine

/-- `ptr <- ptr + k` as word arithmetic. -/
theorem advance_eq (s : State) (k : Nat) : s.advance k = { s with ptr := s.ptr + BitVec.ofNat 64 k } := by
  simp [State.advance, BitVec.ofInt_add, BitVec.ofInt_toInt]

/-- Format F3 completes: every address the operands touch is valid. -/
theorem binaryOp_ok {f : Word → Word → Word} {a b d : Mode} {s : State} {ea : Int} (he : eaOf s 3 d = some ea)
    (h : AllValid s.cfg (touched s 1 [a, b, d])) :
    binaryOp f a b d s = .next
      { s with mem := s.mem.write ea.toNat (f (valueOf s 1 a) (valueOf s 2 b))
               len := growAll s.len (touched s 1 [a, b, d])
               ptr := s.ptr + 4#64 } := by
  have hmem : ea ∈ touched s 1 [a, b, d] := by simp [touched, touchedBy, he]
  simp only [binaryOp, resolveSSD_ok he h, Acc.done_ok]
  rw [memWrite_ok (s := { s with len := growAll s.len (touched s 1 [a, b, d]) }) (h ea hmem)]
  simp [advance_eq, State.grow, growLen_of_lt (lt_growAll hmem)]

/-- Format F3 faults at the first invalid address. -/
theorem binaryOp_bad {f : Word → Word → Word} {a b d : Mode} {s : State} {pre : List Int} {e : Int}
    (h : FirstInvalid s.cfg (touched s 1 [a, b, d]) pre e) :
    binaryOp f a b d s = .next (addressFault s pre e) := by
  simp [binaryOp, resolveSSD_bad h]

/-- Format F2 completes. -/
theorem jumpOp_ok {taken : Word → Bool} {c t : Mode} {s : State} (h : AllValid s.cfg (touched s 1 [c, t])) :
    jumpOp taken c t s = .next
      { s with len := growAll s.len (touched s 1 [c, t])
               ptr := if taken (valueOf s 1 c) then valueOf s 2 t else s.ptr + 3#64 } := by
  simp only [jumpOp, resolveSS_ok h, Acc.done_ok]
  cases taken (valueOf s 1 c) <;> simp [advance_eq]

/-- Format F2 faults at the first invalid address. -/
theorem jumpOp_bad {taken : Word → Bool} {c t : Mode} {s : State} {pre : List Int} {e : Int}
    (h : FirstInvalid s.cfg (touched s 1 [c, t]) pre e) : jumpOp taken c t s = .next (addressFault s pre e) := by
  simp [jumpOp, resolveSS_bad h]

end Sys2Proof.Machine
end

