-- ==== Sys2Proof/Laws/Step.lean ====
section
/-! SUPPORT. What the fetch and the step can do, said once. -/

namespace Sys2Proof.Machine

/-- The fetch of an invalid address (R71). -/
theorem fetchInstr_bad {s : State} (h : validAddr s.cfg s.ptr.toInt = false) :
    fetchInstr s = .raised (s.raise .invalidAddress none (some s.ptr.toInt)) := by
  simp [fetchInstr, memRead_bad h]

/-- The fetch of a word that decodes (R71, R72). -/
theorem fetchInstr_ok {s : State} {i : Instr} (h : validAddr s.cfg s.ptr.toInt = true)
    (hd : decode (s.mem.read s.ptr.toInt.toNat) = .ok i) : fetchInstr s = .ok i (s.grow s.ptr.toInt.toNat) := by
  simp [fetchInstr, memRead_ok h, hd]

/-- The fetch of a word that decode rejects (R71, R72). -/
theorem fetchInstr_error {s : State} {e : DecodeError} (h : validAddr s.cfg s.ptr.toInt = true)
    (hd : decode (s.mem.read s.ptr.toInt.toNat) = .error e) :
    fetchInstr s = .raised ((s.grow s.ptr.toInt.toNat).raise (causeOf e) (some (s.mem.read s.ptr.toInt.toNat)) none) := by
  simp [fetchInstr, memRead_ok h, hd]

theorem step_running {s : State} (h : s.status = .running) : step s = (fetchInstr s).done exec := by
  simp [step, stepEnabled, h]

/-- A step with a next state starts `Running`, and is a fetch fault, a decode fault or the decoded instruction. -/
theorem step_next_cases {s t : State} (h : step s = .next t) :
    s.status = .running ∧
    ((validAddr s.cfg s.ptr.toInt = false ∧ t = s.raise .invalidAddress none (some s.ptr.toInt)) ∨
     (∃ e, validAddr s.cfg s.ptr.toInt = true ∧ decode (s.mem.read s.ptr.toInt.toNat) = .error e ∧
        t = (s.grow s.ptr.toInt.toNat).raise (causeOf e) (some (s.mem.read s.ptr.toInt.toNat)) none) ∨
     (∃ i, validAddr s.cfg s.ptr.toInt = true ∧ decode (s.mem.read s.ptr.toInt.toNat) = .ok i ∧
        exec i (s.grow s.ptr.toInt.toNat) = .next t)) := by
  cases hs : s.status with
  | needsInput => simp [step, stepEnabled, hs] at h
  | halted => simp [step, stepEnabled, hs] at h
  | fault => simp [step, stepEnabled, hs] at h
  | running =>
    refine ⟨rfl, ?_⟩
    rw [step_running hs] at h
    cases hv : validAddr s.cfg s.ptr.toInt with
    | false =>
      rw [fetchInstr_bad hv, Acc.done_raised] at h
      injection h with h
      exact .inl ⟨rfl, h.symm⟩
    | true =>
      cases hd : decode (s.mem.read s.ptr.toInt.toNat) with
      | error e =>
        rw [fetchInstr_error hv hd, Acc.done_raised] at h
        injection h with h
        exact .inr (.inl ⟨e, rfl, rfl, h.symm⟩)
      | ok i =>
        rw [fetchInstr_ok hv hd, Acc.done_ok] at h
        exact .inr (.inr ⟨i, rfl, rfl, h⟩)

end Sys2Proof.Machine
end

