-- ==== Sys2Proof/Tests/Slice0.lean ====
section
/-! SUPPORT. The model's own tests. Expected results are those of 95_test_vectors.md (the vector is named) or are written
out from the rule named. The `witness_` theorems show that the hypotheses of each statement of
Certificates/Slice0/Obligations.lean can be met, with a witness for each clause. -/

open Sys2Proof Sys2Proof.Machine Sys2Proof.Claims

namespace Sys2Proof.Tests

/-- A core that holds the words `ws` from address 0 on, as reset with that program leaves it (R150). -/
def boot (ws : List Word) : State := { State.reset with mem := Memory.load 0 ws, len := ws.length }

/-- One view of the state after one step. -/
def after {α : Type} (s : State) (f : State → α) : Option α :=
  match step s with
  | .next t => some (f t)
  | .fault _ => none
  | .refused _ => none

def minWord : Word := 0x8000000000000000#64
def maxWord : Word := 0x7fffffffffffffff#64

/-! ### Well-formedness: a term each check refuses (R59) -/

theorem test_illformed_add : (Instr.add .position .position .immediate).wellFormed = false := by decide
theorem test_illformed_mul : (Instr.mul .relative .immediate .immediate).wellFormed = false := by decide
theorem test_illformed_inp : (Instr.inp .immediate).wellFormed = false := by decide
theorem test_illformed_lt : (Instr.lt .immediate .position .immediate).wellFormed = false := by decide
theorem test_illformed_eq : (Instr.eq .position .position .immediate).wellFormed = false := by decide
theorem test_wellformed_immediate_sources : (Instr.jt .immediate .immediate).wellFormed = true := by decide

/-! ### Decoding: every constructor's word, written out from R50 and R54 (op + 100 m1 + 1000 m2 + 10000 m3) -/

theorem test_decode_add : decode 21101#64 = .ok (.add .immediate .immediate .relative) := by decide
theorem test_decode_mul : decode 1002#64 = .ok (.mul .position .immediate .position) := by decide
theorem test_decode_inp : decode 203#64 = .ok (.inp .relative) := by decide
theorem test_decode_out : decode 104#64 = .ok (.out .immediate) := by decide
theorem test_decode_jt : decode 2105#64 = .ok (.jt .immediate .relative) := by decide
theorem test_decode_jf : decode 1006#64 = .ok (.jf .position .immediate) := by decide
theorem test_decode_lt : decode 1007#64 = .ok (.lt .position .immediate .position) := by decide
theorem test_decode_eq : decode 20108#64 = .ok (.eq .immediate .position .relative) := by decide
theorem test_decode_arb : decode 209#64 = .ok (.arb .relative) := by decide
theorem test_decode_hlt : decode 99#64 = .ok .hlt := by decide
/-- V10: surplus digits are ignored (D7). -/
theorem test_decode_surplus : decode 1104#64 = .ok (.out .immediate) ∧ decode 10099#64 = .ok .hlt := by decide
/-- V10: negative words (D4), unknown opcodes, bad modes (D5, D6). -/
theorem test_decode_rejects :
    decode (-1#64) = .error .unknownOpcode ∧ decode (-99#64) = .error .unknownOpcode ∧
    decode 0#64 = .error .unknownOpcode ∧ decode 100#64 = .error .unknownOpcode ∧
    decode 10#64 = .error .unknownOpcode ∧ decode 98#64 = .error .unknownOpcode ∧
    decode 103#64 = .error .invalidMode ∧ decode 10001#64 = .error .invalidMode ∧
    decode 11108#64 = .error .invalidMode ∧ decode 1301#64 = .error .invalidMode ∧
    decode 304#64 = .error .invalidMode := by decide
/-- R63: the two examples of assembly. -/
theorem test_assemble :
    assemble [.instr (.add .position .immediate .position) [100, 1, 100], .instr (.out .relative) [-1], .instr .hlt []] =
      [1001, 100, 1, 100, 204, -1, 99] := by decide
/-- The first word alone decodes; bits above `nbits` are 0. -/
theorem test_table_word : decodeTableWord 8 4 = some (.out .position) ∧ decodeTableWord 8 (256 + 99) = some .hlt := by
  decide
/-- The placed instruction is what the next step runs: `OUT 0` of the word 4 at address 0. -/
theorem test_fetch_word : after (State.reset.withFetchWord 8 4) State.outq = some [4] := by decide
theorem test_fetch_word_keeps_invariant : CoreInv (State.reset.withFetchWord 8 4) := by decide

/-! ### One step of each instruction -/

/-- V11: the sum wraps. -/
theorem test_add_wraps : after (boot [1101, maxWord, 1, 5, 99, 7]) (fun t => (t.mem.read 5, t.ptr)) =
    some (minWord, 4) := by decide
/-- V11: three relative operands, rb = 4. -/
theorem test_add_relative : after { boot [22201, 1, 2, 4, 99, 10, 20, 30, 0] with rb := 4 } (fun t => t.mem.read 8) =
    some 30 := by decide
/-- V12: (2^63 - 1)^2 wraps to 1. -/
theorem test_mul_wraps : after (boot [1102, maxWord, maxWord, 5, 99, 7]) (fun t => t.mem.read 5) = some 1 := by decide
/-- V12: signs. -/
theorem test_mul_signs : after (boot [1102, -3, 4, 5, 99, 0]) (fun t => t.mem.read 5) = some (-12) := by decide
/-- V13: one value consumed, oldest first; the instruction may overwrite its own word. -/
theorem test_inp_fifo : after { boot [3, 0, 99] with inq := [7, 8] } (fun t => (t.mem.read 0, t.inq, t.ptr)) =
    some (7, [8], 2) := by decide
/-- V13: an empty queue suspends before the bad destination is seen. -/
theorem test_inp_suspends : after (boot [3, -1, 99]) (fun t => (t.status, t.frec, t.len, t.ptr)) =
    some (.needsInput, none, 3, 0) := by decide
/-- V13: negative values go out as they are. -/
theorem test_out_negative : after (boot [104, -5]) (fun t => (t.outq, t.ptr)) = some ([-5], 2) := by decide
/-- V13, R82 example 4: a negative effective address. -/
theorem test_out_fault : after (boot [204, -1]) (fun t => (t.frec, t.outq, t.len, t.ptr)) =
    some (some ⟨.invalidAddress, 0, some 204, some (-1)⟩, [], 2, 0) := by decide
/-- V14: position condition -3 is true, target through memory. -/
theorem test_jt_taken : after (boot [5, 7, 8, 99, 104, 1, 99, -3, 4]) State.ptr = some 4 := by decide
/-- V14: a jump not taken still resolves its target. -/
theorem test_jt_resolves_target : after (boot [105, 0, -5, 99]) State.frec =
    some (some ⟨.invalidAddress, 0, some 105, some (-5)⟩) := by decide
/-- V14. -/
theorem test_jf_taken : after (boot [1106, 0, 4, 99]) State.ptr = some 4 := by decide
/-- V14. -/
theorem test_jf_not_taken : after (boot [1106, 5, 4, 99]) State.ptr = some 3 := by decide
/-- V15: signed. -/
theorem test_lt_signed : after (boot [1107, minWord, maxWord, 5, 99, -1]) (fun t => t.mem.read 5) = some 1 := by decide
/-- V15: a false comparison writes 0. -/
theorem test_lt_false_writes : after (boot [1107, 8, 8, 5, 99, -1]) (fun t => t.mem.read 5) = some 0 := by decide
/-- V15: no truncation to 32 bits. -/
theorem test_eq_full_width : after (boot [1108, 4294967296, 0, 5, 99, -1]) (fun t => t.mem.read 5) = some 0 := by decide
/-- V15: compared with itself, then overwritten. -/
theorem test_eq_alias : after (boot [8, 5, 5, 5, 99, 77]) (fun t => t.mem.read 5) = some 1 := by decide
/-- V16: the operand is resolved with the old base. -/
theorem test_arb_old_base : after { boot [209, 2, 99, 6, 0, 0, 0] with rb := 1 } (fun t => (t.rb, t.ptr)) =
    some (7, 2) := by decide
/-- V16: the accumulation wraps. -/
theorem test_arb_wraps : after { boot [109, 1] with rb := maxWord } State.rb = some minWord := by decide
/-- V16: `ptr` stays on the halt word. -/
theorem test_hlt : after (boot [99]) (fun t => (t.status, t.ptr, t.frec)) = some (.halted, 0, none) := by decide

/-! ### Addresses, growth and faults -/

/-- V16: the relative sum is exact, not wrapped to 0. -/
theorem test_relative_sum_exact : after { boot [204, minWord] with rb := minWord } State.frec =
    some (some ⟨.invalidAddress, 0, some 204, some (-18446744073709551616)⟩) := by decide
/-- V17: `ADDR_LIMIT` itself is no valid address. -/
theorem test_limit_is_invalid : after (boot [4, maxWord, 99]) State.frec =
    some (some ⟨.invalidAddress, 0, some 4, some 9223372036854775807⟩) := by decide
/-- V17: operand 1 is resolved (and grows the memory) before operand 2 faults. -/
theorem test_growth_before_fault : after (boot [1, 20, -2, -3, 99]) (fun t => (t.len, t.frec, t.ptr)) =
    some (21, some ⟨.invalidAddress, 0, some 1, some (-2)⟩, 0) := by decide
/-- V17: the empty program. -/
theorem test_empty_program : after State.reset (fun t => (t.len, t.status, t.frec)) =
    some (1, .fault, some ⟨.unknownOpcode, 0, some 0, none⟩) := by decide
/-- V14: the fetch after a jump to -7. -/
theorem test_fetch_negative : after { boot [1105, 1, -7, 99] with ptr := -7 } (fun t => (t.frec, t.len)) =
    some (some ⟨.invalidAddress, -7, none, some (-7)⟩, 4) := by decide
/-- V13: an illegal input word faults even on an empty queue. -/
theorem test_invalid_mode : after (boot [103, 3, 99]) State.frec =
    some (some ⟨.invalidMode, 0, some 103, none⟩) := by decide
/-- V6: a destination past the end grows the memory exactly. -/
theorem test_write_grows : after (boot [1, 0, 0, 10, 99]) (fun t => (t.len, t.mem.read 10, t.mem.read 9)) =
    some (11, 2, 0) := by decide
/-- A smaller `ADDR_LIMIT` bounds the operand words too (R75): the second operand word would be at the limit. -/
theorem test_small_limit : after { boot [1, 0] with cfg := ⟨2⟩ } State.frec =
    some (some ⟨.invalidAddress, 0, some 1, some 2⟩) := by decide
/-- The canonical form: writing 0 removes the entry. -/
theorem test_write_zero : Memory.write [(0, 5), (3, 7)] 3 0 = [(0, 5)] ∧ Memory.wf [(3, 7), (3, 7)] = false ∧
    Memory.wf [(3, 0)] = false := by decide

/-! ### The host's operations -/

/-- V1: `run` on the suspending program returns `NeedsInput` and leaves `ptr` at 0. -/
theorem test_run_suspends : (run 1 (boot [3, 5, 0, 0, 0, 0])).map (fun r => (r.1, r.2.ptr)) = some (.needsInput, 0) := by
  decide
/-- V16: `run` on a halted core. -/
theorem test_run_halted : run 0 { boot [99] with status := .halted } = some (.halted, { boot [99] with status := .halted }) := by
  decide
/-- R117: fuel 1 does not end the endless loop of V14. -/
theorem test_run_fuel : run 1 (boot [1105, 1, 0]) = none := by decide
theorem test_take : takeOutput { State.reset with outq := [109, 1] } = (some 109, { State.reset with outq := [1] }) ∧
    takeOutput State.reset = (none, State.reset) := by decide
theorem test_new_machine_refused : newMachine ⟨2⟩ [1, 2, 3] [] = none := by decide
theorem test_read_memory : readMemory (boot [3, 0, -1]) = [3, 0, -1] ∧ readWord 2 (boot [3, 0, -1]) = some (-1) ∧
    readWord 3 (boot [3, 0, -1]) = none ∧ readWord (-1) (boot [3, 0, -1]) = none := by decide
/-- R19, R21: the codes of decision D15, and the offending opcode. -/
theorem test_codes : Status.fault.code = 3 ∧ Cause.invalidMode.code = 3 ∧ faultCode State.reset = 0 ∧
    FaultRecord.opcode ⟨.unknownOpcode, 0, some 1098, none⟩ = some 98 ∧ faultLine State.reset = false := by decide

/-! ### Witnesses for the statements' hypotheses -/

/-- A state whose `ADD 5, 6, 7` completes. -/
def addState : State := boot [1, 5, 6, 7, 99, 30, 12, 0]

theorem witness_DecodeInvertsEncode :
    (Instr.add .immediate .position .relative).wellFormed = true ∧
    (7000001#64).toInt = encodeNat (.add .position .position .position) +
      10 ^ ((Instr.add .position .position .position).width + 1) * (70 : Nat) := by decide
theorem witness_DecodedExactlyByExaminedDigits :
    Instr.hlt.wellFormed = true ∧ 0 ≤ (10099#64).toInt ∧ (10099#64).toNat % 10 ^ (Instr.hlt.width + 1) = encodeNat .hlt := by
  decide
theorem witness_DecodeVerdictOnEveryWord :
    minWord.toInt < 0 ∧ (0 ≤ (0#64).toInt ∧ rolesOf ((0#64).toNat % 100) = none) ∧
    (0 ≤ (103#64).toInt ∧ rolesOf ((103#64).toNat % 100) = some [true] ∧ HasBadDigit 103#64 [true]) ∧
    (0 ≤ (304#64).toInt ∧ rolesOf ((304#64).toNat % 100) = some [false] ∧ HasBadDigit 304#64 [false]) ∧
    (0 ≤ maxWord.toInt ∧ rolesOf (maxWord.toNat % 100) = some [false, false, true] ∧
      HasBadDigit maxWord [false, false, true]) ∧
    (0 ≤ (99#64).toInt ∧ rolesOf ((99#64).toNat % 100) = some [] ∧ ¬ HasBadDigit 99#64 []) ∧
    ¬ HasBadDigit 20108#64 [false, false, true] := by decide
theorem witness_InstructionWordLayout :
    0 ≤ (21101#64).toInt ∧ decode 21101#64 = .ok (.add .immediate .immediate .relative) ∧
    (2 < (Instr.add .immediate .immediate .relative).modes.length ∧
      validAddr addState.cfg (addState.ptr.toInt + (3 : Nat)) = true) := by decide
theorem witness_ModesEachRoleAdmits :
    (decode 20108#64 = .ok (.eq .immediate .position .relative) ∧ rolesOf 8 = some [false, false, true] ∧
      [false, false, true].getD 2 false = true) ∧
    (rolesOf (Instr.inp .relative).opcode = some [true] ∧ (Instr.inp .relative).modes[0]? ≠ some .immediate) ∧
    (addState.mem.wf = true ∧ storeOf (.add .position .position .position) addState = some (7, 42) ∧
      AllValid addState.cfg (touched addState 1 (Instr.add .position .position .position).modes)) ∧
    (JumpTaken (.jf .immediate .immediate) .immediate .immediate (boot [1106, 0, 4]) ∧
      AllValid Config.default (touched (boot [1106, 0, 4]) 1 [.immediate, .immediate])) := by decide
theorem witness_UnknownLowDigitsRejected :
    (0 ≤ (100#64).toInt ∧ (100#64).toNat % 100 = 0) ∧ (0 ≤ (10#64).toInt ∧ 10 ≤ (10#64).toNat % 100 ∧ (10#64).toNat % 100 ≤ 98) ∧
    (10 ≤ (198#64).toNat % 100 ∧ (198#64).toNat % 100 ≤ 98) ∧
    ((boot [198]).status = .running ∧ validAddr (boot [198]).cfg (boot [198]).ptr.toInt = true ∧
      (boot [198]).mem.read (boot [198]).ptr.toInt.toNat = 198#64) := by decide
theorem witness_AluResultsExactOrWrapped :
    (-(2 ^ 63) ≤ maxWord.toInt + (0#64).toInt ∧ maxWord.toInt + (0#64).toInt < 2 ^ 63) ∧
    (-(2 ^ 63) ≤ minWord.toInt * (1#64).toInt ∧ minWord.toInt * (1#64).toInt < 2 ^ 63) := by decide
theorem witness_GrowthIsExactAndTransparent :
    addState.len ≤ 8 ∧ 7 < addState.len ∧ addState.mem.below addState.len = true ∧
    (validAddr addState.cfg ((7 : Nat) : Int) = true ∧ effAddr .position 7#64 addState.rb = some ((7 : Nat) : Int)) ∧
    (addState.ptr.toInt + (3 : Nat) = (3 : Nat) ∧ validAddr addState.cfg ((3 : Nat) : Int) = true) ∧
    (addState.ptr.toInt = (0 : Nat) ∧ validAddr addState.cfg ((0 : Nat) : Int) = true ∧
      decode (addState.mem.read 0) = .ok (.add .position .position .position)) ∧
    ((boot [103]).ptr.toInt = (0 : Nat) ∧ decode ((boot [103]).mem.read 0) = .error .invalidMode) ∧
    ({ addState with ptr := 8 }.ptr.toInt = ((8 : Nat) : Int) ∧ validAddr addState.cfg ((8 : Nat) : Int) = true ∧
      addState.len ≤ 8) := by decide
/-- The boundary values of the address check: 0 and `ADDR_LIMIT - 1` pass, -1 and `ADDR_LIMIT` do not. -/
theorem witness_MemoryReadRule :
    validAddr addState.cfg 0 = true ∧ validAddr addState.cfg 9223372036854775806 = true ∧
    validAddr addState.cfg (-1) = false ∧ validAddr addState.cfg 9223372036854775807 = false ∧
    addState.mem.below addState.len = true ∧ addState.len ≤ (8 : Int).toNat := by decide
theorem witness_MemoryWriteRule :
    addState.mem.wf = true ∧ validAddr addState.cfg 9223372036854775806 = true ∧ validAddr addState.cfg (-1) = false := by
  decide
theorem witness_SourceOperandRule :
    validAddr addState.cfg (0#64).toInt = true ∧ validAddr addState.cfg (-1#64).toInt = false ∧
    validAddr addState.cfg (addState.rb.toInt + (5#64).toInt) = true ∧
    validAddr addState.cfg (addState.rb.toInt + maxWord.toInt) = false ∧
    (addState.mem.below addState.len = true ∧ effAddr .relative 8#64 addState.rb = some ((8 : Nat) : Int) ∧
      validAddr addState.cfg ((8 : Nat) : Int) = true ∧ addState.len ≤ 8) := by decide
theorem witness_DestinationOperandRule :
    validAddr addState.cfg (7#64).toInt = true ∧ validAddr addState.cfg minWord.toInt = false ∧
    validAddr addState.cfg (addState.rb.toInt + (0#64).toInt) = true ∧
    validAddr addState.cfg (addState.rb.toInt + (-1#64).toInt) = false ∧
    dstAddr none .position 7#64 addState = .ok 7 addState := by decide
theorem witness_AddCompletes :
    eaOf addState 3 .position = some 7 ∧ AllValid addState.cfg (touched addState 1 [.position, .position, .position]) := by
  decide
theorem witness_MulCompletes :
    eaOf (boot [1002, 4, 3, 4, 33]) 3 .position = some 4 ∧
    AllValid Config.default (touched (boot [1002, 4, 3, 4, 33]) 1 [.position, .immediate, .position]) := by decide
theorem witness_LtCompletesOrFaults :
    (eaOf (boot [1107, 3, 8, 5, 99, -1]) 3 .position = some 5 ∧
      AllValid Config.default (touched (boot [1107, 3, 8, 5, 99, -1]) 1 [.immediate, .immediate, .position])) ∧
    FirstInvalid Config.default (touched (boot [7, 20, -2, -3]) 1 (Instr.lt .position .position .position).modes) [1, 20, 2] (-2) ∧
    (0 ≤ (10007#64).toInt ∧ (10007#64).toNat % 100 = 7 ∧ HasBadDigit 10007#64 [false, false, true]) := by decide
theorem witness_EqCompletesOrFaults :
    (eaOf (boot [8, 5, 5, 5, 99, 77]) 3 .position = some 5 ∧
      AllValid Config.default (touched (boot [8, 5, 5, 5, 99, 77]) 1 [.position, .position, .position])) ∧
    FirstInvalid Config.default (touched (boot [8, -1, -2, -3]) 1 (Instr.eq .position .position .position).modes) [1] (-1) ∧
    (0 ≤ (11108#64).toInt ∧ (11108#64).toNat % 100 = 8 ∧ HasBadDigit 11108#64 [false, false, true]) := by decide
/-- The input clauses: an empty queue, a queue with a good destination, a queue with a bad one, a rejected word. -/
theorem witness_InputCompletesSuspendsOrFaults :
    ((boot [3, 3, 99, 0]).inq = [] ∧ (boot [3, 3, 99, 0]).status = .running) ∧
    ({ boot [3, 0, 99] with inq := [7, 8] }.inq = 7 :: [8] ∧ eaOf { boot [3, 0, 99] with inq := [7, 8] } 1 .position = some 0 ∧
      AllValid Config.default (touched { boot [3, 0, 99] with inq := [7, 8] } 1 [.position])) ∧
    ({ boot [3, -1, 99] with inq := [9] }.inq ≠ [] ∧
      FirstInvalid Config.default (touched { boot [3, -1, 99] with inq := [9] } 1 (Instr.inp .position).modes) [1] (-1)) ∧
    (0 ≤ (103#64).toInt ∧ (103#64).toNat % 100 = 3 ∧ HasBadDigit 103#64 [true]) := by decide
theorem witness_OutputCompletesOrFaults :
    AllValid Config.default (touched (boot [4, 10]) 1 [.position]) ∧
    FirstInvalid Config.default (touched (boot [204, -1]) 1 (Instr.out .relative).modes) [1] (-1) ∧
    (0 ≤ (304#64).toInt ∧ (304#64).toNat % 100 = 4 ∧ HasBadDigit 304#64 [false]) := by decide
theorem witness_JumpIfTrueCompletesOrFaults :
    AllValid Config.default (touched (boot [1105, 7, 4, 99]) 1 [.immediate, .immediate]) ∧
    FirstInvalid Config.default (touched (boot [105, 0, -5, 99]) 1 (Instr.jt .immediate .position).modes) [1, 2] (-5) ∧
    (0 ≤ (3005#64).toInt ∧ (3005#64).toNat % 100 = 5 ∧ HasBadDigit 3005#64 [false, false]) := by decide
theorem witness_JumpIfFalseCompletesOrFaults :
    AllValid Config.default (touched (boot [1106, 0, 4, 99]) 1 [.immediate, .immediate]) ∧
    FirstInvalid Config.default (touched (boot [6, -5, 0, 99]) 1 (Instr.jf .position .position).modes) [1] (-5) ∧
    (0 ≤ (906#64).toInt ∧ (906#64).toNat % 100 = 6 ∧ HasBadDigit 906#64 [false, false]) := by decide
theorem witness_AdjustRelativeBaseCompletes : AllValid Config.default (touched (boot [109, 5]) 1 [.immediate]) := by decide
theorem witness_HaltChangesOnlyTheStatus :
    (boot [10099, 5]).status = .running ∧ 0 ≤ (boot [10099, 5]).ptr.toInt ∧
    (boot [10099, 5]).ptr.toInt < (boot [10099, 5]).len ∧ (boot [10099, 5]).len ≤ (boot [10099, 5]).cfg.addrLimit ∧
    0 ≤ ((boot [10099, 5]).mem.read 0).toInt ∧ ((boot [10099, 5]).mem.read 0).toNat % 100 = 99 := by decide
theorem witness_FirstInvalidOperandAddressFaults :
    (Instr.add .position .position .position).wellFormed = true ∧
    ((Instr.add .position .position .position).opcode = 3 → (boot [1, 20, 21, -3, 99]).inq ≠ []) ∧
    FirstInvalid Config.default (touched (boot [1, 20, 21, -3, 99]) 1 (Instr.add .position .position .position).modes)
      [1, 20, 2, 21, 3] (-3) := by decide

/-- A next state of each shape of instruction. -/
theorem witness_StoringInstructionsFrame : addState.mem.wf = true ∧
    exec (.add .position .position .position) addState =
      .next { addState with mem := addState.mem.write 7 42, ptr := 4 } := ⟨by decide, rfl⟩
theorem witness_InputFrame : { boot [3, 0, 99] with inq := [7] }.mem.wf = true ∧
    exec (.inp .position) { boot [3, 0, 99] with inq := [7] } = .next { boot [7, 0, 99] with ptr := 2 } := ⟨by decide, rfl⟩
theorem witness_OutputFrame : exec (.out .immediate) (boot [104, -5]) = .next { boot [104, -5] with outq := [-5], ptr := 2 } :=
  rfl
theorem witness_JumpFrame :
    exec (.jt .immediate .immediate) (boot [1105, 7, 4]) = .next { boot [1105, 7, 4] with ptr := 4 } := rfl
theorem witness_AdjustRelativeBaseFrame :
    exec (.arb .immediate) (boot [109, 5]) = .next { boot [109, 5] with rb := 5, ptr := 2 } ∧
    (boot [209, -1]).status ≠ .fault ∧
    exec (.arb .relative) (boot [209, -1]) = .next
      { boot [209, -1] with status := .fault, frec := some ⟨.invalidAddress, 0, some 209, some (-1)⟩ } :=
  ⟨rfl, by decide, rfl⟩

theorem witness_StepRunsDecodedInstruction :
    addState.status = .running ∧ validAddr addState.cfg addState.ptr.toInt = true ∧
    decode (addState.mem.read addState.ptr.toInt.toNat) = .ok (.add .position .position .position) ∧
    addState.ptr.toInt.toNat < addState.len := by decide
theorem witness_FetchOfInvalidAddressFaults :
    ({ addState with ptr := -7 }.status = .running ∧ { addState with ptr := -7 }.ptr.toInt < 0) ∧
    ({ addState with ptr := maxWord }.status = .running ∧
      ({ addState with ptr := maxWord }.cfg.addrLimit : Int) ≤ { addState with ptr := maxWord }.ptr.toInt) := by decide
theorem witness_IllegalWordFaults :
    (State.reset.status = .running ∧ validAddr State.reset.cfg State.reset.ptr.toInt = true ∧
      decode (State.reset.mem.read State.reset.ptr.toInt.toNat) = .error .unknownOpcode) ∧
    ((boot [103]).status = .running ∧ validAddr (boot [103]).cfg (boot [103]).ptr.toInt = true ∧
      decode ((boot [103]).mem.read (boot [103]).ptr.toInt.toNat) = .error .invalidMode) := by decide
theorem witness_NoStepUnlessRunning :
    { addState with status := .needsInput }.status = .needsInput ∧ { addState with status := .halted }.status = .halted ∧
    { addState with status := .fault }.status = .fault := by decide
theorem witness_RunningCoreAlwaysSteps : State.reset.status = .running := by decide
theorem witness_RelativeBaseChangedOnlyByArb :
    step (boot [109, 5]) = .next { boot [109, 5] with rb := 5, ptr := 2 } ∧
    { boot [109, 5] with rb := 5, ptr := 2 }.rb ≠ (boot [109, 5]).rb ∧
    newMachine Config.default [109, 5] [] = some (boot [109, 5]) ∧
    (AllValid Config.default (touched (boot [109, maxWord]) 1 [.immediate]) ∧
      -(2 ^ 63) ≤ (boot [109, maxWord]).rb.toInt + (valueOf (boot [109, maxWord]) 1 .immediate).toInt ∧
      (boot [109, maxWord]).rb.toInt + (valueOf (boot [109, maxWord]) 1 .immediate).toInt < 2 ^ 63) ∧
    validAddr addState.cfg ({ addState with rb := -3 }.rb.toInt + (3#64).toInt) = true :=
  ⟨rfl, by decide, rfl, by decide, by decide⟩
theorem witness_RelativeBaseReadOnlyByRelativeOperands :
    step addState = .next { addState with mem := addState.mem.write 7 42, ptr := 4 } ∧
    decode (addState.mem.read addState.ptr.toInt.toNat) = .ok (.add .position .position .position) ∧
    Mode.relative ∉ (Instr.add .position .position .position).modes ∧
    (Instr.add .position .position .position).opcode ≠ 9 := ⟨rfl, by decide, by decide, by decide⟩
theorem witness_StepOnlyAppendsOutputs :
    step (boot [104, -5]) = .next { boot [104, -5] with outq := [-5], ptr := 2 } := rfl
theorem witness_StepConsumesInputsInOrder :
    step { boot [3, 0, 99] with inq := [7] } = .next { boot [7, 0, 99] with ptr := 2 } := rfl
theorem witness_StepNeverShrinksMemory : step (boot [4, 10]) = .next { boot [4, 10] with len := 11, outq := [0], ptr := 2 } :=
  rfl
theorem witness_StepWritesOnlyItsDestination : addState.mem.wf = true ∧
    step addState = .next { addState with mem := addState.mem.write 7 42, ptr := 4 } ∧
    (addState.mem.write 7 42).read 7 ≠ addState.mem.read 7 := ⟨by decide, rfl, by decide⟩
theorem witness_FaultsArePrecise :
    step State.reset = .next { State.reset with len := 1, status := .fault, frec := some ⟨.unknownOpcode, 0, some 0, none⟩ } :=
  rfl
theorem witness_PtrAdvancesExactlyByWidth : addState.cfg.Legal ∧
    step addState = .next { addState with mem := addState.mem.write 7 42, ptr := 4 } ∧
    { addState with mem := addState.mem.write 7 42, ptr := 4 }.status = .running ∧
    decode (addState.mem.read addState.ptr.toInt.toNat) = .ok (.add .position .position .position) ∧
    (step (boot [1106, 5, 4]) = .next { boot [1106, 5, 4] with ptr := 3 } ∧
      decode 1106#64 = .ok (.jf .immediate .immediate) ∧ valueOf (boot [1106, 5, 4]) 1 .immediate ≠ 0#64) :=
  ⟨by decide, rfl, by decide, by decide, rfl, by decide, by decide⟩
/-- The premises of `StoreIsSeenByNextFetch`, decided. -/
abbrev StoresAtNext (i : Instr) (s : State) (v : Word) : Prop :=
  MemInv s ∧ s.status = .running ∧ storeOf i s = some (s.ptr.toInt + i.width, v) ∧ AllValid s.cfg (touched s 1 i.modes)
/-- P4: the add stores 99 at address 4; and one store of each other storing instruction, a word that decodes to none too. -/
theorem witness_StoreIsSeenByNextFetch :
    (StoresAtNext (.add .immediate .immediate .position) (boot [1101, 98, 1, 4, 0]) 99#64 ∧
      exec (.add .immediate .immediate .position) (boot [1101, 98, 1, 4, 0]) =
        .next { boot [1101, 98, 1, 4, 99] with ptr := 4 } ∧ decode 99#64 = .ok .hlt) ∧
    (StoresAtNext (.mul .immediate .immediate .position) (boot [1102, 33, 3, 4]) 99#64 ∧
      exec (.mul .immediate .immediate .position) (boot [1102, 33, 3, 4]) =
        .next { boot [1102, 33, 3, 4, 99] with ptr := 4 }) ∧
    (StoresAtNext (.lt .immediate .immediate .position) (boot [1107, 3, 8, 4]) 1#64 ∧
      exec (.lt .immediate .immediate .position) (boot [1107, 3, 8, 4]) =
        .next { boot [1107, 3, 8, 4, 1] with ptr := 4 } ∧ decode 1#64 = .ok (.add .position .position .position)) ∧
    (StoresAtNext (.eq .immediate .immediate .position) (boot [1108, 3, 8, 4, 99]) 0#64 ∧
      exec (.eq .immediate .immediate .position) (boot [1108, 3, 8, 4, 99]) =
        .next { boot [1108, 3, 8, 4, 0] with ptr := 4 } ∧ decode 0#64 = .error .unknownOpcode) ∧
    (StoresAtNext (.inp .position) { boot [3, 2] with inq := [99] } 99#64 ∧
      exec (.inp .position) { boot [3, 2] with inq := [99] } = .next { boot [3, 2, 99] with ptr := 2 }) :=
  ⟨⟨by decide, rfl, by decide⟩, ⟨by decide, rfl⟩, ⟨by decide, rfl, by decide⟩, ⟨by decide, rfl, by decide⟩, by decide, rfl⟩
/-- A taken jump of each kind to -7. -/
theorem witness_JumpToInvalidTargetFaultsAtNextFetch :
    ((boot [1105, 1, -7, 99]).status = .running ∧
      JumpTaken (.jt .immediate .immediate) .immediate .immediate (boot [1105, 1, -7, 99]) ∧
      AllValid Config.default (touched (boot [1105, 1, -7, 99]) 1 [.immediate, .immediate]) ∧
      validAddr Config.default (valueOf (boot [1105, 1, -7, 99]) 2 .immediate).toInt = false) ∧
    ((boot [1106, 0, -7, 99]).status = .running ∧
      JumpTaken (.jf .immediate .immediate) .immediate .immediate (boot [1106, 0, -7, 99]) ∧
      AllValid Config.default (touched (boot [1106, 0, -7, 99]) 1 [.immediate, .immediate]) ∧
      validAddr Config.default (valueOf (boot [1106, 0, -7, 99]) 2 .immediate).toInt = false) := by decide

theorem witness_LoadedMachineState : (⟨2⟩ : Config).addrLimit < [1#64, 2#64, 3#64].length ∧
    [1#64, 2#64].length ≤ (⟨2⟩ : Config).addrLimit := by decide
theorem witness_FirstInstructionIsAtZero : newMachine Config.default [99] [5] = some { boot [99] with inq := [5] } ∧
    decode 99#64 = .ok .hlt := by decide
theorem witness_StepKeepsInvariant : CoreInv addState ∧
    step addState = .next { addState with mem := addState.mem.write 7 42, ptr := 4 } := ⟨by decide, rfl⟩
theorem witness_HostOperationsKeepInvariant : CoreInv { boot [3, 5] with status := .needsInput } ∧ Config.default.Legal ∧
    newMachine Config.default [99] [] = some (boot [99]) := by decide
theorem witness_RunKeepsInvariantAndStops : CoreInv (boot [99]) ∧
    run 1 (boot [99]) = some (.halted, { boot [99] with status := .halted }) := by decide
theorem witness_RunOfStoppedCoreDoesNothing :
    { boot [99] with status := .halted }.status = .halted ∧ { boot [99] with status := .fault }.status = .fault := by decide
theorem witness_RunIsIdempotentOnNeedsInput : CoreInv { boot [3, 5] with status := .needsInput } ∧
    { boot [3, 5] with status := .needsInput }.status = .needsInput ∧ (boot [3, 5]).inq = [] := by decide
theorem witness_ResumedInputConsumesPushedValue : CoreInv { boot [3, 5] with status := .needsInput } ∧
    { boot [3, 5] with status := .needsInput }.status = .needsInput ∧ (boot [3, 5]).inq = [] ∧
    instrAt { boot [3, 5] with status := .needsInput } = some (.inp .position) ∧
    eaOf { boot [3, 5] with status := .needsInput } 1 .position = some 5 ∧
    AllValid Config.default (touched { boot [3, 5] with status := .needsInput } 1 [.position]) := by decide
theorem witness_FaultIsNeverCleared :
    { boot [0] with status := .fault, frec := some ⟨.unknownOpcode, 0, some 0, none⟩ }.status = .fault ∧
    { boot [0] with status := .fault, frec := some ⟨.unknownOpcode, 0, some 0, none⟩ }.frec =
      some ⟨.unknownOpcode, 0, some 0, none⟩ := by decide
theorem witness_RunFuelIsMonotone : run 1 (boot [99]) = some (.halted, { boot [99] with status := .halted }) := by decide
theorem witness_SelfLoopNeverReturns : (boot [1105, 1, 0]).status = .running ∧
    step (boot [1105, 1, 0]) = .next (boot [1105, 1, 0]) := ⟨by decide, rfl⟩
theorem witness_DiagnosticReadRule : 2 < (boot [3, 0, -1]).len ∧ (-1 : Int) < 0 ∧ ((boot [3, 0, -1]).len : Int) ≤ 3 := by decide

end Sys2Proof.Tests
end

/-! The opcode of a decoded word (R50, R53, R54). -/

namespace Sys2Proof

/-- An `Except` sequence answers a value only through a value of its first part. -/
theorem except_bind_ok {ε α β : Type} {x : Except ε α} {k : α → Except ε β} {b : β} (h : x.bind k = .ok b) :
    ∃ a, k a = .ok b := by
  cases x with
  | error e => cases h
  | ok a => exact ⟨a, h⟩

theorem decodeS_ok {mk : Mode → Instr} {n : Nat} {i : Instr} (h : decodeS mk n = .ok i) : ∃ a, i = mk a := by
  obtain ⟨a, h⟩ := except_bind_ok h
  exact ⟨a, (Except.ok.inj h).symm⟩

theorem decodeD_ok {mk : Mode → Instr} {n : Nat} {i : Instr} (h : decodeD mk n = .ok i) : ∃ d, i = mk d := by
  obtain ⟨d, h⟩ := except_bind_ok h
  exact ⟨d, (Except.ok.inj h).symm⟩

theorem decodeSS_ok {mk : Mode → Mode → Instr} {n : Nat} {i : Instr} (h : decodeSS mk n = .ok i) :
    ∃ a b, i = mk a b := by
  obtain ⟨a, h⟩ := except_bind_ok h
  obtain ⟨b, h⟩ := except_bind_ok h
  exact ⟨a, b, (Except.ok.inj h).symm⟩

theorem decodeSSD_ok {mk : Mode → Mode → Mode → Instr} {n : Nat} {i : Instr} (h : decodeSSD mk n = .ok i) :
    ∃ a b d, i = mk a b d := by
  obtain ⟨a, h⟩ := except_bind_ok h
  obtain ⟨b, h⟩ := except_bind_ok h
  obtain ⟨d, h⟩ := except_bind_ok h
  exact ⟨a, b, d, (Except.ok.inj h).symm⟩

/-- The row of R54 that the decoder picks is the one of the low two digits. -/
theorem opcode_of_decodeNat {n : Nat} {i : Instr} (h : decodeNat n = .ok i) : i.opcode = n % 100 := by
  unfold decodeNat opcodeOf at h
  split at h
  case h_1 hn => obtain ⟨a, b, d, rfl⟩ := decodeSSD_ok h; exact hn.symm
  case h_2 hn => obtain ⟨a, b, d, rfl⟩ := decodeSSD_ok h; exact hn.symm
  case h_3 hn => obtain ⟨d, rfl⟩ := decodeD_ok h; exact hn.symm
  case h_4 hn => obtain ⟨a, rfl⟩ := decodeS_ok h; exact hn.symm
  case h_5 hn => obtain ⟨a, b, rfl⟩ := decodeSS_ok h; exact hn.symm
  case h_6 hn => obtain ⟨a, b, rfl⟩ := decodeSS_ok h; exact hn.symm
  case h_7 hn => obtain ⟨a, b, d, rfl⟩ := decodeSSD_ok h; exact hn.symm
  case h_8 hn => obtain ⟨a, b, d, rfl⟩ := decodeSSD_ok h; exact hn.symm
  case h_9 hn => obtain ⟨a, rfl⟩ := decodeS_ok h; exact hn.symm
  case h_10 hn => cases h; exact hn.symm
  case h_11 => cases h

/-- A word that decodes is not negative, and its low two digits are the instruction's opcode (R50, R53). -/
theorem opcode_of_decode {w : Word} {i : Instr} (h : decode w = .ok i) :
    0 ≤ w.toInt ∧ i.opcode = w.toNat % 100 := by
  unfold decode at h
  split at h
  · cases h
  · next hw => exact ⟨Int.not_lt.1 hw, opcode_of_decodeNat h⟩

end Sys2Proof

/-! Two runs that differ in the relative base (R16). Each access and each instruction but `ARB` is run from a
state with base `b` and from the same state with base `r`: where the mode of every operand lets it (`r = b` for a
relative one) both give the same answer, and each keeps its own base. For `r ≠ b` this is the independence of the base;
for `r = b` it is the frame of `rb` in every mode. -/

namespace Sys2Proof.Machine

/-- The second answer is the first with base `r` for base `b`. -/
inductive Acc.Rebased (b r : Word) {α : Type} : Acc α → Acc α → Prop where
  | ok (v : α) {s : State} (h : s.rb = b) : Rebased b r (.ok v s) (.ok v { s with rb := r })
  | raised {s : State} (h : s.rb = b) : Rebased b r (.raised s) (.raised { s with rb := r })

/-- Both outcomes are next states, the second the first with base `r` for base `b`. -/
def NextRebased (b r : Word) (x y : Host.Outcome State Fault Refusal) : Prop :=
  ∃ t : State, x = .next t ∧ t.rb = b ∧ y = .next { t with rb := r }

section
variable {α β : Type} {b r : Word} {s : State}

theorem Acc.Rebased.bind {x y : Acc α} {k k' : α → State → Acc β} (h : Rebased b r x y)
    (hk : ∀ v u, u.rb = b → Rebased b r (k v u) (k' v { u with rb := r })) :
    Rebased b r (x.bind k) (y.bind k') := by
  cases h with
  | ok v hs => exact hk v _ hs
  | raised hs => exact .raised hs

theorem Acc.Rebased.done {x y : Acc α} {k k' : α → State → Host.Outcome State Fault Refusal} (h : Rebased b r x y)
    (hk : ∀ v u, u.rb = b → NextRebased b r (k v u) (k' v { u with rb := r })) :
    NextRebased b r (x.done k) (y.done k') := by
  cases h with
  | ok v hs => exact hk v _ hs
  | raised hs => exact ⟨_, rfl, hs, rfl⟩

theorem checkAddr_rebased (w : Option Word) (a : Int) (hs : s.rb = b) :
    Acc.Rebased b r (checkAddr w a s) (checkAddr w a { s with rb := r }) := by
  cases hv : validAddr s.cfg a with
  | true => rw [checkAddr_ok hv, checkAddr_ok (s := { s with rb := r }) hv]; exact .ok _ hs
  | false => rw [checkAddr_bad hv, checkAddr_bad (s := { s with rb := r }) hv]; exact .raised hs

theorem memRead_rebased (w : Option Word) (a : Int) (hs : s.rb = b) :
    Acc.Rebased b r (memRead w a s) (memRead w a { s with rb := r }) :=
  (checkAddr_rebased w a hs).bind fun _ _ hu => .ok _ hu

theorem memWrite_rebased (w : Option Word) (a : Int) (v : Word) (hs : s.rb = b) :
    Acc.Rebased b r (memWrite w a v s) (memWrite w a v { s with rb := r }) :=
  (checkAddr_rebased w a hs).bind fun _ _ hu => .ok () hu

/-- The base enters an effective address in relative mode only (R76, R77). -/
theorem effAddr_rebased {m : Mode} (p : Word) (hm : m = .relative → r = b) : effAddr m p r = effAddr m p b := by
  cases m with
  | position => rfl
  | immediate => rfl
  | relative => rw [hm rfl]

theorem srcVal_rebased {m : Mode} (w : Option Word) (p : Word) (hm : m = .relative → r = b) (hs : s.rb = b) :
    Acc.Rebased b r (srcVal w m p s) (srcVal w m p { s with rb := r }) := by
  unfold srcVal
  rw [effAddr_rebased p hm, hs]
  cases effAddr m p b with
  | none => exact .ok p hs
  | some ea => exact memRead_rebased w ea hs

theorem dstAddr_rebased {m : Mode} (w : Option Word) (p : Word) (hm : m = .relative → r = b) (hs : s.rb = b) :
    Acc.Rebased b r (dstAddr w m p s) (dstAddr w m p { s with rb := r }) := by
  unfold dstAddr
  rw [effAddr_rebased p hm, hs]
  cases effAddr m p b with
  | none => exact .raised hs
  | some ea => exact (checkAddr_rebased w ea hs).bind fun _ _ hu => .ok ea hu

theorem source_rebased {m : Mode} (w : Option Word) (k : Nat) (hm : m = .relative → r = b) (hs : s.rb = b) :
    Acc.Rebased b r (source w k m s) (source w k m { s with rb := r }) :=
  (memRead_rebased w _ hs).bind fun p _ hu => srcVal_rebased w p hm hu

theorem dest_rebased {m : Mode} (w : Option Word) (k : Nat) (hm : m = .relative → r = b) (hs : s.rb = b) :
    Acc.Rebased b r (dest w k m s) (dest w k m { s with rb := r }) :=
  (memRead_rebased w _ hs).bind fun p _ hu => dstAddr_rebased w p hm hu

theorem resolveSS_rebased {m n : Mode} (hm : m = .relative → r = b) (hn : n = .relative → r = b) (hs : s.rb = b) :
    Acc.Rebased b r (resolveSS m n s) (resolveSS m n { s with rb := r }) :=
  (source_rebased _ 1 hm hs).bind fun _ _ h1 => (source_rebased _ 2 hn h1).bind fun _ _ h2 => .ok _ h2

theorem resolveSSD_rebased {m n d : Mode} (hm : m = .relative → r = b) (hn : n = .relative → r = b)
    (hd : d = .relative → r = b) (hs : s.rb = b) :
    Acc.Rebased b r (resolveSSD m n d s) (resolveSSD m n d { s with rb := r }) :=
  (source_rebased _ 1 hm hs).bind fun _ _ h1 => (source_rebased _ 2 hn h1).bind fun _ _ h2 =>
    (dest_rebased _ 3 hd h2).bind fun _ _ h3 => .ok _ h3

theorem binaryOp_rebased (f : Word → Word → Word) {m n d : Mode} (hm : m = .relative → r = b)
    (hn : n = .relative → r = b) (hd : d = .relative → r = b) (hs : s.rb = b) :
    NextRebased b r (binaryOp f m n d s) (binaryOp f m n d { s with rb := r }) :=
  (resolveSSD_rebased hm hn hd hs).done fun _ _ h1 =>
    (memWrite_rebased _ _ _ h1).done fun _ _ h2 => ⟨_, rfl, h2, rfl⟩

theorem jumpOp_rebased (taken : Word → Bool) {c t : Mode} (hc : c = .relative → r = b) (ht : t = .relative → r = b)
    (hs : s.rb = b) : NextRebased b r (jumpOp taken c t s) (jumpOp taken c t { s with rb := r }) :=
  (resolveSS_rebased hc ht hs).done fun v u hu => by
    cases taken v.1 <;> exact ⟨_, rfl, hu, rfl⟩

/-- `IN` on an empty queue (R95). -/
theorem execInp_nil {d : Mode} (hq : s.inq = []) : execInp d s = .next { s with status := .needsInput } := by
  unfold execInp; rw [hq]

/-- `IN` on a queue with a head (R95). -/
theorem execInp_cons {d : Mode} {v : Word} {rest : List Word} (hq : s.inq = v :: rest) :
    execInp d s = (dest s.instrWord 1 d s).done fun ea u =>
      (memWrite s.instrWord ea v { u with inq := rest }).done fun _ t => .next (t.advance 2) := by
  unfold execInp; rw [hq]

theorem execInp_rebased {d : Mode} (hd : d = .relative → r = b) (hs : s.rb = b) :
    NextRebased b r (execInp d s) (execInp d { s with rb := r }) := by
  obtain ⟨q, hq⟩ : ∃ q, s.inq = q := ⟨_, rfl⟩
  cases q with
  | nil =>
    rw [execInp_nil hq, execInp_nil (s := { s with rb := r }) hq]
    exact ⟨_, rfl, hs, rfl⟩
  | cons v rest =>
    rw [execInp_cons hq, execInp_cons (s := { s with rb := r }) hq]
    refine (dest_rebased _ 1 hd hs).done fun ea u hu => ?_
    exact (memWrite_rebased (s := { u with inq := rest }) _ ea v hu).done fun _ _ h2 => ⟨_, rfl, h2, rfl⟩

theorem execOut_rebased {a : Mode} (ha : a = .relative → r = b) (hs : s.rb = b) :
    NextRebased b r (execOut a s) (execOut a { s with rb := r }) :=
  (source_rebased _ 1 ha hs).done fun _ _ hu => ⟨_, rfl, hu, rfl⟩

/-- Every instruction but `ARB` reads the base through its relative operands only, and keeps it (R16). -/
theorem exec_rebased {i : Instr} (hop : i.opcode ≠ 9) (hm : Mode.relative ∈ i.modes → r = b) (hs : s.rb = b) :
    NextRebased b r (exec i s) (exec i { s with rb := r }) := by
  have hmode : ∀ m ∈ i.modes, m = .relative → r = b := fun m h hr => hm (hr ▸ h)
  have hbinary : ∀ (f : Word → Word → Word) (m n d : Mode), i.modes = [m, n, d] →
      NextRebased b r (binaryOp f m n d s) (binaryOp f m n d { s with rb := r }) := fun f m n d h =>
    binaryOp_rebased f (hmode m (by simp [h])) (hmode n (by simp [h])) (hmode d (by simp [h])) hs
  have hjump : ∀ (taken : Word → Bool) (c t : Mode), i.modes = [c, t] →
      NextRebased b r (jumpOp taken c t s) (jumpOp taken c t { s with rb := r }) := fun taken c t h =>
    jumpOp_rebased taken (hmode c (by simp [h])) (hmode t (by simp [h])) hs
  cases i with
  | add m n d => exact hbinary aluAdd m n d rfl
  | mul m n d => exact hbinary aluMul m n d rfl
  | inp d => exact execInp_rebased (hmode d List.mem_cons_self) hs
  | out a => exact execOut_rebased (hmode a List.mem_cons_self) hs
  | jt c t => exact hjump testTrue c t rfl
  | jf c t => exact hjump (fun v => !testTrue v) c t rfl
  | lt m n d => exact hbinary aluLt m n d rfl
  | eq m n d => exact hbinary aluEq m n d rfl
  | arb a => exact absurd rfl hop
  | hlt => exact ⟨_, rfl, hs, rfl⟩

end

/-- The frame of `rb` (R16): `exec_rebased` with the base the state has. -/
theorem exec_rb_of_not_arb {i : Instr} {s t : State} (hop : i.opcode ≠ 9) (h : exec i s = .next t) : t.rb = s.rb := by
  obtain ⟨u, hu, hrb, -⟩ := exec_rebased (r := s.rb) hop (fun _ => rfl) (rfl : s.rb = s.rb)
  obtain rfl : u = t := Host.Outcome.next.inj (hu.symm.trans h)
  exact hrb

/-- A step that changes the base runs an instruction of opcode 9 (R16). -/
theorem arb_of_step_changes_rb {s t : State} (h : step s = .next t) (hrb : t.rb ≠ s.rb) :
    ∃ i, decode (s.mem.read s.ptr.toInt.toNat) = .ok i ∧ i.opcode = 9 := by
  obtain ⟨-, ⟨-, rfl⟩ | ⟨e, -, -, rfl⟩ | ⟨i, -, hd, hx⟩⟩ := step_next_cases h
  · exact absurd rfl hrb
  · exact absurd rfl hrb
  · exact ⟨i, hd, Decidable.byContradiction fun hop => hrb ((exec_rb_of_not_arb hop hx).trans (s.grow_rb _))⟩

end Sys2Proof.Machine

/-! The statements about the relative base (10_state.md section 6). -/

namespace Sys2Proof.Machine

theorem takeOutput_rb (s : State) : (takeOutput s).2.rb = s.rb := by
  unfold takeOutput
  split <;> rfl

theorem resume_rb (s : State) : (resume s).rb = s.rb := by
  unfold resume
  split <;> rfl

theorem newMachine_rb {c : Config} {p q : List Word} {s : State} (h : newMachine c p q = some s) : s.rb = 0#64 := by
  unfold newMachine at h
  split at h
  · cases h; rfl
  · cases h

/-- The wrapped sum is the exact one where that is a signed 64-bit integer (R92). -/
theorem toInt_aluAdd {a b : Word} (hl : -(2 ^ 63) ≤ a.toInt + b.toInt) (hu : a.toInt + b.toInt < 2 ^ 63) :
    (aluAdd a b).toInt = a.toInt + b.toInt := by
  rw [aluAdd, wrap64, BitVec.toInt_ofInt]
  exact Int.bmod_eq_of_le (by omega) (by omega)

/-- `ARB` completes (R110): its operand's addresses are valid. -/
theorem execArb_ok {a : Mode} {s : State} (h : AllValid s.cfg (touched s 1 [a])) :
    execArb a s = .next
      { s with rb := aluAdd s.rb (valueOf s 1 a), len := growAll s.len (touched s 1 [a]), ptr := s.ptr + 2#64 } := by
  rw [touched_one] at h ⊢
  simp [execArb, source_ok h, advance_eq]

/-- Settles O33: only `ARB` changes the base (`exec_rebased` at the state's own base), and the rest is the behaviour of
`ARB`, of the host's operations and of relative operands, each by its law. -/
theorem relativeBaseChangedOnlyByArb : Obligations.RelativeBaseChangedOnlyByArb := by
  unfold Obligations.RelativeBaseChangedOnlyByArb
  refine ⟨?_, rfl, fun _ _ _ _ h => newMachine_rb h, fun s v => ⟨rfl, takeOutput_rb s, rfl, resume_rb s⟩, ?_, ?_⟩
  · intro s t h hrb
    obtain ⟨i, hd, hop⟩ := arb_of_step_changes_rb h hrb
    obtain ⟨hw, hlow⟩ := opcode_of_decode hd
    exact ⟨hw, hlow.symm.trans hop⟩
  · intro a s hv hl hu
    exact ⟨_, execArb_ok hv, toInt_aluAdd hl hu⟩
  · intro w p s hv
    have hea : effAddr .relative p s.rb = some (s.rb.toInt + p.toInt) := rfl
    exact ⟨⟨_, (srcVal_some hea).trans (memRead_ok hv)⟩, ⟨_, by rw [dstAddr_some hea, checkAddr_ok hv, Acc.bind_ok]⟩⟩

/-- Settles O60: a fetch fault and a decode fault do not read the base, and `exec_rebased` is the case of a decoded
instruction. -/
theorem relativeBaseReadOnlyByRelativeOperands : Obligations.RelativeBaseReadOnlyByRelativeOperands := by
  unfold Obligations.RelativeBaseReadOnlyByRelativeOperands
  intro s t r h hfree
  obtain ⟨hrun, ⟨hv, rfl⟩ | ⟨e, hv, hd, rfl⟩ | ⟨i, hv, hd, hx⟩⟩ := step_next_cases h
  all_goals rw [step_running (s := { s with rb := r }) hrun]
  · rw [fetchInstr_bad (s := { s with rb := r }) hv]; rfl
  · rw [fetchInstr_error (s := { s with rb := r }) hv hd]; rfl
  · obtain ⟨hrel, hop⟩ := hfree i hd
    obtain ⟨u, hu, -, hu'⟩ := exec_rebased (r := r) (s := s.grow s.ptr.toInt.toNat) hop (fun hm => absurd hm hrel) rfl
    obtain rfl : u = t := Host.Outcome.next.inj (hu.symm.trans hx)
    rw [fetchInstr_ok (s := { s with rb := r }) hv hd]
    exact hu'

end Sys2Proof.Machine

/-! The statements about growth and the read primitive (20_memory.md section 2). -/

namespace Sys2Proof.Machine

/-- Growth at or past the length (R32). -/
theorem State.grow_of_le {s : State} {a : Nat} (h : s.len ≤ a) : s.grow a = { s with len := a + 1 } := by
  simp only [State.grow, growLen, if_pos h]

/-- Growth to hold an address that is already held (R32). -/
theorem State.grow_of_lt {s : State} {a : Nat} (h : a < s.len) : s.grow a = s := by
  simp only [State.grow, growLen_of_lt h]

/-- `MemRead` at or past the length (R34): the cell reads 0, and the memory grows. -/
theorem memRead_past {w : Option Word} {a : Int} {s : State} (h : validAddr s.cfg a = true)
    (hb : s.mem.below s.len = true) (hl : s.len ≤ a.toNat) :
    memRead w a s = .ok 0#64 { s with len := a.toNat + 1 } := by
  rw [memRead_ok h, Memory.read_past hb hl, State.grow_of_le hl]

/-- `DstAddr` of a valid address (R77). -/
theorem dstAddr_ok {w : Option Word} {m : Mode} {p : Word} {s : State} {ea : Int}
    (he : effAddr m p s.rb = some ea) (h : validAddr s.cfg ea = true) :
    dstAddr w m p s = .ok ea (s.grow ea.toNat) := by
  rw [dstAddr_some he, checkAddr_ok h, Acc.bind_ok]

/-- The word 0 has no row in R54. -/
theorem decode_zero : decode 0#64 = .error .unknownOpcode := rfl

/-- The fetch at or past the length (R71(b)): it reads 0, grows, and fails decode. -/
theorem fetchInstr_past {s : State} (h : validAddr s.cfg s.ptr.toInt = true) (hb : s.mem.below s.len = true)
    (hl : s.len ≤ s.ptr.toInt.toNat) :
    fetchInstr s =
      .raised ({ s with len := s.ptr.toInt.toNat + 1 }.raise .unknownOpcode (some 0#64) none) := by
  have hread : s.mem.read s.ptr.toInt.toNat = 0#64 := Memory.read_past hb hl
  rw [fetchInstr_error h (hread ▸ decode_zero), hread, State.grow_of_le hl, causeOf]

/-- Settles O7: the two cases of growth, then each kind of access by its law at a valid address. -/
theorem growthIsExactAndTransparent : Obligations.GrowthIsExactAndTransparent := by
  unfold Obligations.GrowthIsExactAndTransparent
  intro s a
  refine ⟨State.grow_of_le, State.grow_of_lt, le_growLen s.len a, lt_growLen s.len a,
    fun hb b hl => Memory.read_past hb hl, ?_, ?_, ?_⟩
  · intro w v hv
    exact ⟨memRead_ok hv, memWrite_ok hv, fun m p he => dstAddr_ok he hv⟩
  · intro w k hk hv
    rw [operandWord, hk]
    exact memRead_ok hv
  · intro hp hv
    have hv' : validAddr s.cfg s.ptr.toInt = true := hp ▸ hv
    obtain rfl : s.ptr.toInt.toNat = a := by rw [hp, Int.toNat_natCast]
    exact ⟨fun i hd => fetchInstr_ok hv' hd, fun e hd => fetchInstr_error hv' hd, fun hb hl => fetchInstr_past hv' hb hl⟩

/-- Settles O8: the read at an address that fails the check, that passes it, and that lies at or past the length. -/
theorem memoryReadRule : Obligations.MemoryReadRule := by
  unfold Obligations.MemoryReadRule
  intro w a s
  exact ⟨memRead_bad, memRead_ok, memRead_past⟩

end Sys2Proof.Machine

/-! What the decoder answers on a word, digit by digit (R50, R54, R58, R59). -/

namespace Sys2Proof

/-- An `Except` sequence answers a value exactly when its parts do. -/
theorem except_bind_eq_ok {ε α β : Type} {x : Except ε α} {k : α → Except ε β} {b : β} :
    x.bind k = .ok b ↔ ∃ a, x = .ok a ∧ k a = .ok b := by
  cases x <;> simp [Except.bind]

theorem modeOfDigit_digit (m : Mode) : modeOfDigit m.digit = some m := by
  cases m <;> rfl

theorem digit_of_modeOfDigit {c : Nat} {m : Mode} (h : modeOfDigit c = some m) : m.digit = c := by
  unfold modeOfDigit at h
  split at h <;> cases h <;> rfl

theorem decodeSrc_eq_ok {n k : Nat} {m : Mode} : decodeSrc n k = .ok m ↔ m.digit = modeDigit n k := by
  unfold decodeSrc
  constructor
  · intro h
    split at h
    · next hm => cases h; exact digit_of_modeOfDigit hm
    · cases h
  · intro h
    rw [← h, modeOfDigit_digit]

theorem decodeDst_eq_ok {n k : Nat} {m : Mode} :
    decodeDst n k = .ok m ↔ m.digit = modeDigit n k ∧ m.isDest = true := by
  unfold decodeDst
  constructor
  · intro h
    split at h
    · next hm =>
      split at h
      · next hd => cases h; exact ⟨digit_of_modeOfDigit hm, hd⟩
      · cases h
    · cases h
  · rintro ⟨h, hd⟩
    simp [← h, modeOfDigit_digit, hd]

/-- The mode digits of the number `n` are those of the modes `ms`, from operand 1 on (R50). -/
def ModesAreDigits (n : Nat) (ms : List Mode) : Prop :=
  ms.map Mode.digit = (List.range ms.length).map fun k => modeDigit n (k + 1)

theorem ModesAreDigits.getElem? {n k : Nat} {ms : List Mode} (h : ModesAreDigits n ms) (hk : k < ms.length) :
    ms[k]?.map Mode.digit = some (modeDigit n (k + 1)) := by
  rw [← List.getElem?_map, h]
  simp [hk]

/-! The four formats of R54: the digits name the modes, and a destination must not be immediate. -/

theorem decodeS_eq_ok {mk : Mode → Instr} {n : Nat} {i : Instr} :
    decodeS mk n = .ok i ↔ ∃ a, mk a = i ∧ ModesAreDigits n [a] := by
  simp [decodeS, except_bind_eq_ok, decodeSrc_eq_ok, ModesAreDigits, and_comm]

theorem decodeD_eq_ok {mk : Mode → Instr} {n : Nat} {i : Instr} :
    decodeD mk n = .ok i ↔ ∃ d, mk d = i ∧ d.isDest = true ∧ ModesAreDigits n [d] := by
  simp [decodeD, except_bind_eq_ok, decodeDst_eq_ok, ModesAreDigits, and_comm]

theorem decodeSS_eq_ok {mk : Mode → Mode → Instr} {n : Nat} {i : Instr} :
    decodeSS mk n = .ok i ↔ ∃ a b, mk a b = i ∧ ModesAreDigits n [a, b] := by
  simp only [decodeSS, except_bind_eq_ok, decodeSrc_eq_ok, ← exists_and_left]
  refine exists_congr fun a => exists_congr fun b => ?_
  simp [ModesAreDigits, List.range_succ, and_left_comm, and_comm]

theorem decodeSSD_eq_ok {mk : Mode → Mode → Mode → Instr} {n : Nat} {i : Instr} :
    decodeSSD mk n = .ok i ↔ ∃ a b d, mk a b d = i ∧ d.isDest = true ∧ ModesAreDigits n [a, b, d] := by
  simp only [decodeSSD, except_bind_eq_ok, decodeSrc_eq_ok, decodeDst_eq_ok, ← exists_and_left]
  refine exists_congr fun a => exists_congr fun b => exists_congr fun d => ?_
  simp [ModesAreDigits, List.range_succ, and_assoc, and_left_comm, and_comm]

/-- A number is decoded exactly when its digits are read as the instruction, legal by its roles (R50, R55). -/
theorem decodeNat_eq_ok {n : Nat} {i : Instr} :
    decodeNat n = .ok i ↔ i.opcode = n % 100 ∧ i.wellFormed = true ∧ ModesAreDigits n i.modes := by
  by_cases hop : i.opcode = n % 100
  case neg => exact ⟨fun h => absurd (opcode_of_decodeNat h) hop, fun h => absurd h.1 hop⟩
  rw [and_iff_right hop, decodeNat, opcodeOf, ← hop]
  cases i with
  | add a b d => simp [Instr.opcode, Instr.wellFormed, Instr.modes, decodeSSD_eq_ok]
  | mul a b d => simp [Instr.opcode, Instr.wellFormed, Instr.modes, decodeSSD_eq_ok]
  | inp d => simp [Instr.opcode, Instr.wellFormed, Instr.modes, decodeD_eq_ok]
  | out a => simp [Instr.opcode, Instr.wellFormed, Instr.modes, decodeS_eq_ok]
  | jt c t => simp [Instr.opcode, Instr.wellFormed, Instr.modes, decodeSS_eq_ok]
  | jf c t => simp [Instr.opcode, Instr.wellFormed, Instr.modes, decodeSS_eq_ok]
  | lt a b d => simp [Instr.opcode, Instr.wellFormed, Instr.modes, decodeSSD_eq_ok]
  | eq a b d => simp [Instr.opcode, Instr.wellFormed, Instr.modes, decodeSSD_eq_ok]
  | arb a => simp [Instr.opcode, Instr.wellFormed, Instr.modes, decodeS_eq_ok]
  | hlt => simp [Instr.opcode, Instr.wellFormed, Instr.modes, ModesAreDigits]

/-- A word is decoded exactly when it is not negative and its digits are read as the instruction (R50, R53). -/
theorem decode_eq_ok {w : Word} {i : Instr} : decode w = .ok i ↔
    0 ≤ w.toInt ∧ i.opcode = w.toNat % 100 ∧ i.wellFormed = true ∧ ModesAreDigits w.toNat i.modes := by
  rw [← decodeNat_eq_ok, decode]
  split
  · next h => simp [h]
  · next h => rw [and_iff_right (Int.not_lt.1 h)]

/-- No row of R54 for the low two digits (R57). -/
theorem decodeNat_unknown {n : Nat} (h : Claims.rolesOf (n % 100) = none) : decodeNat n = .error .unknownOpcode := by
  unfold decodeNat opcodeOf
  split
  case h_11 => rfl
  all_goals next hn => rw [hn] at h; cases h

theorem decode_unknown {w : Word} (hw : 0 ≤ w.toInt) (h : Claims.rolesOf (w.toNat % 100) = none) :
    decode w = .error .unknownOpcode := by
  rw [decode, if_neg (Int.not_lt.2 hw), decodeNat_unknown h]

/-- The digits that R57 names have no row in R54. -/
theorem rolesOf_eq_none {c : Nat} (h : c = 0 ∨ (10 ≤ c ∧ c ≤ 98)) : Claims.rolesOf c = none := by
  unfold Claims.rolesOf
  rw [if_neg (by omega), if_neg (by omega), if_neg (by omega), if_neg (by omega), if_neg (by omega)]

/-- Digit `k` of the mode field, from 0 (R50). -/
theorem modeDigit_succ (n k : Nat) : modeDigit n (k + 1) = n / 100 / 10 ^ k % 10 := by
  rw [modeDigit, Nat.div_div_eq_div_mul, Nat.pow_add' 10 k 2]

theorem Mode.digit_lt (m : Mode) : m.digit < 10 := by
  cases m <;> decide

/-- Digit `k` of the mode field is the mode of operand `k + 1` (R50, R63). -/
theorem modeField_digit {ms : List Mode} {k : Nat} {m : Mode} (h : ms[k]? = some m) :
    modeField ms / 10 ^ k % 10 = m.digit := by
  induction ms generalizing k with
  | nil => cases h
  | cons a ms ih =>
    have ha := a.digit_lt
    cases k with
    | zero => cases h; rw [modeField]; omega
    | succ k =>
      rw [modeField, Nat.pow_succ', ← Nat.div_div_eq_div_mul, ← ih (k := k) h]
      congr 2
      omega

/-- The shape lemmas of Laws/PerInstr.lean, for every instruction at once. -/
theorem encodingShape (i : Instr) : Laws.EncodingShape.Statement i := by
  cases i with
  | add a b d => exact Laws.EncodingShape.add a b d
  | mul a b d => exact Laws.EncodingShape.mul a b d
  | inp d => exact Laws.EncodingShape.inp d
  | out a => exact Laws.EncodingShape.out a
  | jt c t => exact Laws.EncodingShape.jt c t
  | jf c t => exact Laws.EncodingShape.jf c t
  | lt a b d => exact Laws.EncodingShape.lt a b d
  | eq a b d => exact Laws.EncodingShape.eq a b d
  | arb a => exact Laws.EncodingShape.arb a
  | hlt => exact Laws.EncodingShape.hlt

theorem Instr.opcode_lt (i : Instr) : i.opcode < 100 := by
  obtain ⟨-, hop, -⟩ := encodingShape i
  exact hop ▸ Nat.mod_lt _ (by decide)

/-- The encoding carries the modes in its mode digits (R63). -/
theorem modesAreDigits_encodeNat (i : Instr) : ModesAreDigits (encodeNat i) i.modes := by
  have hop := i.opcode_lt
  have hfield : encodeNat i / 100 = modeField i.modes := by rw [encodeNat]; omega
  refine List.ext_getElem (by simp) fun k hk _ => ?_
  rw [List.length_map] at hk
  simp [modeDigit_succ, hfield, modeField_digit (List.getElem?_eq_getElem hk)]

/-- A well-formed instruction is decoded from its encoding (R50, R63). -/
theorem decode_encode {i : Instr} (h : i.wellFormed = true) : decode (encode i) = .ok i := by
  obtain ⟨hlt, hop, hnat, -⟩ := encodingShape i
  have hpos : 0 ≤ (encode i).toInt := by rw [BitVec.toInt_eq_toNat_of_lt (by omega)]; exact Int.natCast_nonneg _
  rw [decode_eq_ok, hnat]
  exact ⟨hpos, hop.symm, h, modesAreDigits_encodeNat i⟩

end Sys2Proof

/-! The roles of the operands (R54, R55). -/

namespace Sys2Proof

/-- No destination of the roles `rs` is immediate in the modes `ms` (R55). -/
def DestsAdmitted (rs : List Bool) (ms : List Mode) : Prop :=
  ∀ k : Nat, rs.getD k false = true → ms[k]? ≠ some .immediate

theorem destsAdmitted_nil (ms : List Mode) : DestsAdmitted [] ms := fun _ h => by cases h

theorem isDest_iff {m : Mode} : m.isDest = true ↔ m ≠ .immediate := by
  cases m <;> decide

theorem destsAdmitted_cons {r : Bool} {m : Mode} {rs : List Bool} {ms : List Mode} :
    DestsAdmitted (r :: rs) (m :: ms) ↔ (r = true → m.isDest = true) ∧ DestsAdmitted rs ms := by
  rw [DestsAdmitted, ← Nat.and_forall_add_one]
  simp [DestsAdmitted, isDest_iff]

/-- The opcode alone fixes the number of operands (R54). -/
theorem rolesOf_length (i : Instr) : (Claims.rolesOf i.opcode).map List.length = some i.modes.length := by
  cases i <;> rfl

/-- Well-formedness is the table's roles (R54, R55): no destination is immediate. -/
theorem wellFormed_iff_destsAdmitted {i : Instr} {rs : List Bool} (h : Claims.rolesOf i.opcode = some rs) :
    i.wellFormed = true ↔ DestsAdmitted rs i.modes := by
  cases i <;> cases h <;> simp [Instr.modes, Instr.wellFormed, destsAdmitted_cons, destsAdmitted_nil]

/-- A destination of a decoded word is in position or relative mode (R55, R59). -/
theorem dest_mode_of_decode {w : Word} {i : Instr} {rs : List Bool} {k : Nat} (hd : decode w = .ok i)
    (hrs : Claims.rolesOf i.opcode = some rs) (hk : rs.getD k false = true) :
    i.modes[k]? = some .position ∨ i.modes[k]? = some .relative := by
  obtain ⟨-, -, hwf, -⟩ := decode_eq_ok.1 hd
  have hne : i.modes[k]? ≠ some .immediate := (wellFormed_iff_destsAdmitted hrs).1 hwf k hk
  have hlen : rs.length = i.modes.length := by simpa [hrs] using rolesOf_length i
  have hlt : k < i.modes.length := by
    by_contra hge
    rw [List.getD_eq_default _ _ (by omega)] at hk
    cases hk
  rw [List.getElem?_eq_getElem hlt] at hne ⊢
  cases hm : i.modes[k] with
  | position => exact .inl rfl
  | immediate => exact absurd (congrArg some hm) hne
  | relative => exact .inr rfl

end Sys2Proof

/-! Stores and taken jumps (R90 to R106). -/

namespace Sys2Proof.Machine

/-- `EQ` compares the full words (R106). -/
theorem aluEq_eq (a b : Word) : aluEq a b = if a = b then 1#64 else 0#64 := by
  simp [aluEq, BitVec.toInt_inj]

/-- The jumps' test (R92) on the full word. -/
theorem testTrue_eq (a : Word) : testTrue a = decide (a ≠ 0#64) := by
  simp [testTrue, ← BitVec.toInt_inj]

/-- `IN` completes (R95): an input is there and the destination's addresses are valid. -/
theorem execInp_ok {d : Mode} {s : State} {v : Word} {rest : List Word} {ea : Int} (hq : s.inq = v :: rest)
    (he : eaOf s 1 d = some ea) (h : AllValid s.cfg (touched s 1 [d])) :
    execInp d s = .next
      { s with mem := s.mem.write ea.toNat v
               len := growAll s.len (touched s 1 [d])
               inq := rest
               ptr := s.ptr + 2#64 } := by
  rw [touched_one] at h ⊢
  have hmem : ea ∈ touchedBy s 1 d := by simp [touchedBy, he]
  rw [execInp_cons hq, dest_ok he h, Acc.done_ok,
    memWrite_ok (s := { s with len := growAll s.len (touchedBy s 1 d), inq := rest }) (h ea hmem)]
  simp [advance_eq, State.grow, growLen_of_lt (lt_growAll hmem)]

/-- A completed F3 instruction leaves its result in the word that its destination names (R79). -/
theorem binaryOp_stores {f : Word → Word → Word} {a b d : Mode} {s : State} {ea : Int} {v : Word}
    (hwf : s.mem.wf = true)
    (hst : (eaOf s 3 d).map (fun e => (e, f (valueOf s 1 a) (valueOf s 2 b))) = some (ea, v))
    (h : AllValid s.cfg (touched s 1 [a, b, d])) :
    ∃ t : State, binaryOp f a b d s = .next t ∧ t.mem.read ea.toNat = v := by
  obtain ⟨e, he, hev⟩ := Option.map_eq_some_iff.1 hst
  cases hev
  exact ⟨_, binaryOp_ok he h, Memory.read_write_same hwf _ _⟩

/-- A completed `IN` leaves the input in the word that its destination names (R95). -/
theorem execInp_stores {d : Mode} {s : State} {ea : Int} {v : Word} (hwf : s.mem.wf = true)
    (hst : Claims.storeOf (.inp d) s = some (ea, v)) (h : AllValid s.cfg (touched s 1 [d])) :
    ∃ t : State, execInp d s = .next t ∧ t.mem.read ea.toNat = v := by
  obtain ⟨x, hx, hmap⟩ := Option.bind_eq_some_iff.1 hst
  obtain ⟨rest, hq⟩ := List.head?_eq_some_iff.1 hx
  obtain ⟨e, he, hev⟩ := Option.map_eq_some_iff.1 hmap
  cases hev
  exact ⟨_, execInp_ok hq he h, Memory.read_write_same hwf _ _⟩

/-- The word a completed instruction stores is read at the address its destination names (R55, R79). -/
theorem exec_stores {i : Instr} {s : State} {ea : Int} {v : Word} (hwf : s.mem.wf = true)
    (hst : Claims.storeOf i s = some (ea, v)) (h : AllValid s.cfg (touched s 1 i.modes)) :
    ∃ t : State, exec i s = .next t ∧ t.mem.read ea.toNat = v := by
  cases i with
  | add a b d => exact binaryOp_stores (f := aluAdd) hwf hst h
  | mul a b d => exact binaryOp_stores (f := aluMul) hwf hst h
  | lt a b d => exact binaryOp_stores (f := aluLt) hwf hst h
  | eq a b d =>
    refine binaryOp_stores (f := aluEq) hwf ?_ h
    rw [aluEq_eq]
    exact hst
  | inp d => exact execInp_stores hwf hst h
  | out a => cases hst
  | jt c g => cases hst
  | jf c g => cases hst
  | arb a => cases hst
  | hlt => cases hst

/-- A taken jump loads `ptr` with the value of its target operand (R100, R101). -/
theorem exec_jumpTaken {i : Instr} {c g : Mode} {s : State} (hj : Claims.JumpTaken i c g s)
    (h : AllValid s.cfg (touched s 1 [c, g])) : ∃ t : State, exec i s = .next t ∧ t.ptr = valueOf s 2 g := by
  obtain ⟨rfl, hc⟩ | ⟨rfl, hc⟩ := hj
  · exact ⟨_, jumpOp_ok (taken := testTrue) h, if_pos (by simp [testTrue_eq, hc])⟩
  · exact ⟨_, jumpOp_ok (taken := fun v => !testTrue v) h, if_pos (by simp [testTrue_eq, hc])⟩

/-- The step on a word that decode rejects ends in that fault (R71, R131, R133). -/
theorem step_decode_error {s : State} {e : DecodeError} (hrun : s.status = .running)
    (hv : validAddr s.cfg s.ptr.toInt = true) (hd : decode (s.mem.read s.ptr.toInt.toNat) = .error e) :
    step s = .next ((s.grow s.ptr.toInt.toNat).raise (causeOf e) (some (s.mem.read s.ptr.toInt.toNat)) none) := by
  rw [step_running hrun, fetchInstr_error hv hd, Acc.done_raised]

end Sys2Proof.Machine

/-! The statements about the encoding (30_encoding.md). -/

namespace Sys2Proof.Machine

/-- Settles O58: the digits are what `decode_eq_ok` reads, the shape of an instruction its row of R54, and an operand
word the memory read at `ptr + k`. -/
theorem instructionWordLayout : Obligations.InstructionWordLayout := by
  unfold Obligations.InstructionWordLayout
  intro w i _ hd
  obtain ⟨-, hop, -, hdig⟩ := decode_eq_ok.1 hd
  obtain ⟨-, -, -, hwidth⟩ := encodingShape i
  refine ⟨hop, Nat.le_of_succ_le_succ hwidth, rfl, hop ▸ rolesOf_length i, ?_, ?_⟩
  · exact fun k hk => ⟨hdig.getElem? hk, modeDigit_succ w.toNat k⟩
  · exact fun s k _ _ hv => ⟨_, operandWord_ok hv⟩

/-- Settles O59: what is decoded is well-formed and what is well-formed is decoded, and that is the table's roles; then
the effect of a store and of a taken jump. -/
theorem modesEachRoleAdmits : Obligations.ModesEachRoleAdmits := by
  unfold Obligations.ModesEachRoleAdmits
  refine ⟨fun w i rs hd hrs k => dest_mode_of_decode hd hrs, ?_, fun i s ea v => exec_stores, ?_⟩
  · intro i rs hrs hadm
    exact decode_encode ((wellFormed_iff_destsAdmitted hrs).2 hadm)
  · intro i c g s hj hv
    obtain ⟨t, ht, hptr⟩ := exec_jumpTaken hj hv
    exact ⟨t, ht, hptr, fun hg => hptr.trans (by rw [hg]; rfl)⟩

/-- Settles O4: the digits have no row in R54, and the step on a rejected word ends in its fault. -/
theorem unknownLowDigitsRejected : Obligations.UnknownLowDigitsRejected := by
  unfold Obligations.UnknownLowDigitsRejected
  refine ⟨fun w hw hlow => ?_, decode_zero⟩
  have hd : decode w = .error .unknownOpcode := decode_unknown hw (rolesOf_eq_none hlow)
  refine ⟨hd, fun s hrun hv hread => ?_⟩
  subst hread
  exact ⟨_, step_decode_error hrun hv hd, rfl, rfl⟩

end Sys2Proof.Machine

/-! The statements about the step of `HLT` and about operand resolution (40_step_and_operands.md). -/

namespace Sys2Proof.Machine

/-- The step on a word that decodes runs its instruction on the state that holds the fetched address (R70, R71). -/
theorem step_decode_ok {s : State} {i : Instr} (hrun : s.status = .running)
    (hv : validAddr s.cfg s.ptr.toInt = true) (hd : decode (s.mem.read s.ptr.toInt.toNat) = .ok i) :
    step s = exec i (s.grow s.ptr.toInt.toNat) := by
  rw [step_running hrun, fetchInstr_ok hv hd, Acc.done_ok]

theorem exec_hlt (s : State) : exec .hlt s = .next { s with status := .halted } := rfl

/-- `HLT` has no mode digit: every word that is not negative and has its low digits decodes to it (R54, R60). -/
theorem decode_hlt {w : Word} (hw : 0 ≤ w.toInt) (hlow : w.toNat % 100 = 99) : decode w = .ok .hlt :=
  decode_eq_ok.2 ⟨hw, hlow.symm, rfl, rfl⟩

/-- `DstAddr` of an address that fails the check (R77, R33). -/
theorem dstAddr_bad {w : Option Word} {m : Mode} {p : Word} {s : State} {ea : Int}
    (he : effAddr m p s.rb = some ea) (h : validAddr s.cfg ea = false) :
    dstAddr w m p s = .raised (s.raise .invalidAddress w (some ea)) := by
  rw [dstAddr_some he, checkAddr_bad h, Acc.bind_raised]

/-- An immediate operand is no destination (R59). -/
theorem dstAddr_none {w : Option Word} {m : Mode} {p : Word} {s : State} (he : effAddr m p s.rb = none) :
    dstAddr w m p s = .raised (s.raise .invalidMode w none) := by
  unfold dstAddr; rw [he]

/-- `DstAddr` answers only an address that passes the check, and grows the memory for it (R77). -/
theorem dstAddr_ok_inv {w : Option Word} {m : Mode} {p : Word} {s t : State} {ea : Int}
    (h : dstAddr w m p s = .ok ea t) : validAddr s.cfg ea = true ∧ t = s.grow ea.toNat := by
  cases he : effAddr m p s.rb with
  | none => rw [dstAddr_none he] at h; cases h
  | some a =>
    cases hv : validAddr s.cfg a with
    | false => rw [dstAddr_bad he hv] at h; cases h
    | true => rw [dstAddr_ok he hv] at h; cases h; exact ⟨hv, rfl⟩

/-- Settles O21: every such word is `HLT`'s, and the fetch below the length grows nothing. -/
theorem haltChangesOnlyTheStatus : Obligations.HaltChangesOnlyTheStatus := by
  unfold Obligations.HaltChangesOnlyTheStatus
  refine ⟨exec_hlt, fun s hrun hpos hlen hlim hw hlow => ?_⟩
  have hv : validAddr s.cfg s.ptr.toInt = true := validAddr_iff.2 ⟨hpos, by omega⟩
  have hgrow : s.grow s.ptr.toInt.toNat = s := State.grow_of_lt (by omega)
  rw [step_decode_ok hrun hv (decode_hlt hw hlow), hgrow, exec_hlt]

/-- Settles O10: `SrcVal` of an operand that has an effective address is the read there. -/
theorem sourceOperandRule : Obligations.SourceOperandRule := by
  unfold Obligations.SourceOperandRule
  intro w p s
  have hpos : srcVal w .position p s = memRead w p.toInt s := srcVal_some rfl
  have hrel : srcVal w .relative p s = memRead w (s.rb.toInt + p.toInt) s := srcVal_some rfl
  rw [hpos, hrel]
  refine ⟨rfl, memRead_ok, memRead_bad, memRead_ok, memRead_bad, fun hb m ea he hv hl => ?_⟩
  rw [srcVal_some he]
  exact memRead_past hv hb hl

/-- Settles O11: the two modes by the effective address, and an address that `DstAddr` answers has passed the check that
`MemWrite` makes. -/
theorem destinationOperandRule : Obligations.DestinationOperandRule := by
  unfold Obligations.DestinationOperandRule
  intro w p s
  refine ⟨dstAddr_ok rfl, dstAddr_bad rfl, dstAddr_ok rfl, dstAddr_bad rfl, fun m ea t v h => ?_⟩
  obtain ⟨hv, rfl⟩ := dstAddr_ok_inv h
  exact ⟨rfl, _, memWrite_ok (s := s.grow ea.toNat) hv⟩

end Sys2Proof.Machine

/-! Why a word with a row in R54 is rejected (R58, R59): for a mode digit, and for every mode digit its roles do not
admit. -/

namespace Sys2Proof

/-- An answer whose only rejection is `InvalidMode` (R133). -/
def RejectsOnlyModes {α : Type} (x : Except DecodeError α) : Prop := ∀ e : DecodeError, x = .error e → e = .invalidMode

theorem rejectsOnlyModes_ok {α : Type} (a : α) : RejectsOnlyModes (.ok a) := fun _ h => by cases h

theorem rejectsOnlyModes_invalidMode {α : Type} : RejectsOnlyModes (.error .invalidMode : Except DecodeError α) :=
  fun _ h => by cases h; rfl

theorem RejectsOnlyModes.bind {α β : Type} {x : Except DecodeError α} {k : α → Except DecodeError β}
    (hx : RejectsOnlyModes x) (hk : ∀ a, RejectsOnlyModes (k a)) : RejectsOnlyModes (x.bind k) := by
  cases x with
  | ok a => exact hk a
  | error e => obtain rfl := hx e rfl; exact rejectsOnlyModes_invalidMode

theorem decodeSrc_rejectsOnlyModes (n k : Nat) : RejectsOnlyModes (decodeSrc n k) := by
  unfold decodeSrc
  split
  · exact rejectsOnlyModes_ok _
  · exact rejectsOnlyModes_invalidMode

theorem decodeDst_rejectsOnlyModes (n k : Nat) : RejectsOnlyModes (decodeDst n k) := by
  unfold decodeDst
  split
  · split
    · exact rejectsOnlyModes_ok _
    · exact rejectsOnlyModes_invalidMode
  · exact rejectsOnlyModes_invalidMode

theorem decodeS_rejectsOnlyModes (mk : Mode → Instr) (n : Nat) : RejectsOnlyModes (decodeS mk n) :=
  (decodeSrc_rejectsOnlyModes n 1).bind fun _ => rejectsOnlyModes_ok _

theorem decodeD_rejectsOnlyModes (mk : Mode → Instr) (n : Nat) : RejectsOnlyModes (decodeD mk n) :=
  (decodeDst_rejectsOnlyModes n 1).bind fun _ => rejectsOnlyModes_ok _

theorem decodeSS_rejectsOnlyModes (mk : Mode → Mode → Instr) (n : Nat) : RejectsOnlyModes (decodeSS mk n) :=
  (decodeSrc_rejectsOnlyModes n 1).bind fun _ => (decodeSrc_rejectsOnlyModes n 2).bind fun _ => rejectsOnlyModes_ok _

theorem decodeSSD_rejectsOnlyModes (mk : Mode → Mode → Mode → Instr) (n : Nat) : RejectsOnlyModes (decodeSSD mk n) :=
  (decodeSrc_rejectsOnlyModes n 1).bind fun _ => (decodeSrc_rejectsOnlyModes n 2).bind fun _ =>
    (decodeDst_rejectsOnlyModes n 3).bind fun _ => rejectsOnlyModes_ok _

/-- A number with a row in R54 is rejected for its mode digits alone. -/
theorem decodeNat_rejectsOnlyModes {n : Nat} {rs : List Bool} (h : Claims.rolesOf (n % 100) = some rs) :
    RejectsOnlyModes (decodeNat n) := by
  unfold decodeNat opcodeOf
  split
  case h_1 => exact decodeSSD_rejectsOnlyModes _ n
  case h_2 => exact decodeSSD_rejectsOnlyModes _ n
  case h_3 => exact decodeD_rejectsOnlyModes _ n
  case h_4 => exact decodeS_rejectsOnlyModes _ n
  case h_5 => exact decodeSS_rejectsOnlyModes _ n
  case h_6 => exact decodeSS_rejectsOnlyModes _ n
  case h_7 => exact decodeSSD_rejectsOnlyModes _ n
  case h_8 => exact decodeSSD_rejectsOnlyModes _ n
  case h_9 => exact decodeS_rejectsOnlyModes _ n
  case h_10 => exact rejectsOnlyModes_ok _
  case h_11 => simp_all [Claims.rolesOf]

/-- The mode digits of a decoded word are those its roles admit (R58, R59). -/
theorem not_hasBadDigit_of_decode {w : Word} {i : Instr} {rs : List Bool} (hd : decode w = .ok i)
    (hrs : Claims.rolesOf i.opcode = some rs) : ¬ Claims.HasBadDigit w rs := by
  rintro ⟨k, hk, hbad⟩
  obtain ⟨-, -, hwf, hdig⟩ := decode_eq_ok.1 hd
  have hlen : rs.length = i.modes.length := by simpa [hrs] using rolesOf_length i
  obtain ⟨m, hm, hmd⟩ := Option.map_eq_some_iff.1 (hdig.getElem? (hlen ▸ hk))
  obtain hbig | ⟨hdest, hone⟩ := hbad
  · have hle : m.digit ≤ 2 := by cases m <;> decide
    exact absurd (hmd ▸ hbig) (Nat.not_lt.2 hle)
  · have hone' : m.digit = 1 := hmd.trans hone
    have himm : some Mode.immediate = some m := by rw [← modeOfDigit_digit m, hone']; rfl
    exact (wellFormed_iff_destsAdmitted hrs).1 hwf k hdest (hm.trans himm.symm)

/-- Each row of R54 rejects the mode digits that its roles do not admit, as `InvalidMode` (R58, R59, R133). -/
theorem rejectsBadDigits {op : Nat} {rs : List Bool} (hrs : Claims.rolesOf op = some rs) :
    Claims.RejectsBadDigits op rs := by
  rintro w hw rfl hbad
  cases hd : decode w with
  | ok i =>
    obtain ⟨-, hop⟩ := opcode_of_decode hd
    exact absurd hbad (not_hasBadDigit_of_decode hd (hop ▸ hrs))
  | error e =>
    rw [decode, if_neg (Int.not_lt.2 hw)] at hd
    rw [decodeNat_rejectsOnlyModes hrs e hd]

end Sys2Proof

/-! The statements about `IN` and `OUT` (42_io.md). -/

namespace Sys2Proof.Machine

/-- `IN` with an input faults at the first invalid address, and the queue keeps its head (R95, R136). -/
theorem execInp_bad {d : Mode} {s : State} {pre : List Int} {e : Int} (hq : s.inq ≠ [])
    (h : FirstInvalid s.cfg (touched s 1 [d]) pre e) : execInp d s = .next (addressFault s pre e) := by
  obtain ⟨v, rest, hq⟩ := List.exists_cons_of_ne_nil hq
  rw [touched_one] at h
  rw [execInp_cons hq, dest_bad h, Acc.done_raised, faultAt_instrWord]

/-- `OUT` completes (R96): its operand's addresses are valid. -/
theorem execOut_ok {a : Mode} {s : State} (h : AllValid s.cfg (touched s 1 [a])) :
    execOut a s = .next
      { s with outq := s.outq ++ [valueOf s 1 a], len := growAll s.len (touched s 1 [a]), ptr := s.ptr + 2#64 } := by
  rw [touched_one] at h ⊢
  rw [execOut, source_ok h, Acc.done_ok, advance_eq]

/-- `OUT` faults at the first invalid address (R96, R136). -/
theorem execOut_bad {a : Mode} {s : State} {pre : List Int} {e : Int}
    (h : FirstInvalid s.cfg (touched s 1 [a]) pre e) : execOut a s = .next (addressFault s pre e) := by
  rw [touched_one] at h
  rw [execOut, source_bad h, Acc.done_raised, faultAt_instrWord]

/-- The suspension changes the status alone, so `resume` undoes it (R116). -/
theorem resume_suspended {s : State} (h : s.status = .running) : resume { s with status := .needsInput } = s := by
  simp [resume, ← h]

/-- Settles O16: `IN` on an empty queue, with valid addresses and at a first invalid one, each by its law; the words
rejected are those of its row of R54. -/
theorem inputCompletesSuspendsOrFaults : Obligations.InputCompletesSuspendsOrFaults := by
  unfold Obligations.InputCompletesSuspendsOrFaults
  refine ⟨fun d s hq => ⟨execInp_nil hq, resume_suspended⟩, ?_, ?_, fun d => rfl, rejectsBadDigits rfl⟩
  · intro d s v rest ea hq he hv
    exact execInp_ok hq he hv
  · intro d s _ hq pre e h
    exact execInp_bad hq h

/-- Settles O17: `OUT` with valid addresses and at a first invalid one, each by its law; the words rejected are those of
its row of R54. -/
theorem outputCompletesOrFaults : Obligations.OutputCompletesOrFaults := by
  unfold Obligations.OutputCompletesOrFaults
  refine ⟨fun a s hv => execOut_ok hv, ?_, fun a => rfl, rejectsBadDigits rfl⟩
  intro a s pre e h
  exact execOut_bad h

end Sys2Proof.Machine

/-! The statements about `JT` and `JF` (43_jumps.md). -/

namespace Sys2Proof

/-- The encoding of two operands' modes: the hundreds and the thousands digit (R50, R63). -/
theorem encodeNat_two {i : Instr} {c t : Mode} (h : i.modes = [c, t]) :
    encodeNat i = i.opcode + 100 * c.digit + 1000 * t.digit := by
  rw [encodeNat, h, modeField, modeField, modeField]
  omega

end Sys2Proof

namespace Sys2Proof.Machine

/-- `JT` completes (R100): `jumpOp_ok`, taken when the whole word of the condition is not 0. -/
theorem execJt_ok {c t : Mode} {s : State} (h : AllValid s.cfg (touched s 1 [c, t])) :
    execJt c t s = .next
      { s with len := growAll s.len (touched s 1 [c, t])
               ptr := if valueOf s 1 c ≠ 0#64 then valueOf s 2 t else s.ptr + 3#64 } := by
  simp only [execJt, jumpOp_ok h, testTrue_eq, decide_eq_true_eq]

/-- `JF` completes (R101): `jumpOp_ok`, taken when the whole word of the condition is 0. -/
theorem execJf_ok {c t : Mode} {s : State} (h : AllValid s.cfg (touched s 1 [c, t])) :
    execJf c t s = .next
      { s with len := growAll s.len (touched s 1 [c, t])
               ptr := if valueOf s 1 c = 0#64 then valueOf s 2 t else s.ptr + 3#64 } := by
  have htest : (!testTrue (valueOf s 1 c)) = decide (valueOf s 1 c = 0#64) := by simp [testTrue_eq]
  simp only [execJf, jumpOp_ok h, htest, decide_eq_true_eq]

/-- Settles O18: `JT` with valid addresses by its law, at a first invalid one by that of its format, which resolves both
operands before the test; the words rejected are those of its row of R54. -/
theorem jumpIfTrueCompletesOrFaults : Obligations.JumpIfTrueCompletesOrFaults := by
  unfold Obligations.JumpIfTrueCompletesOrFaults
  refine ⟨fun c t s hv => execJt_ok hv, ?_, fun c t => encodeNat_two rfl, rejectsBadDigits rfl⟩
  intro c t s pre e h
  exact jumpOp_bad (taken := testTrue) h

/-- Settles O19: `JF` with valid addresses by its law, at a first invalid one by that of its format, which resolves both
operands before the test; the words rejected are those of its row of R54. -/
theorem jumpIfFalseCompletesOrFaults : Obligations.JumpIfFalseCompletesOrFaults := by
  unfold Obligations.JumpIfFalseCompletesOrFaults
  refine ⟨fun c t s hv => execJf_ok hv, ?_, fun c t => encodeNat_two rfl, rejectsBadDigits rfl⟩
  intro c t s pre e h
  exact jumpOp_bad (taken := fun v => !testTrue v) h

end Sys2Proof.Machine

/-! The statements about `LT` and `EQ` (44_compare.md). -/

namespace Sys2Proof

/-- The encoding of three operands' modes: the hundreds, the thousands and the ten thousands digit (R50, R63). -/
theorem encodeNat_three {i : Instr} {a b d : Mode} (h : i.modes = [a, b, d]) :
    encodeNat i = i.opcode + 100 * a.digit + 1000 * b.digit + 10000 * d.digit := by
  rw [encodeNat, h, modeField, modeField, modeField, modeField]
  omega

end Sys2Proof

namespace Sys2Proof.Machine

/-- `LT` completes (R105): `binaryOp_ok`, whose result is 1 when the signed value of the first operand is the lesser. -/
theorem execLt_ok {a b d : Mode} {s : State} {ea : Int} (he : eaOf s 3 d = some ea)
    (h : AllValid s.cfg (touched s 1 [a, b, d])) :
    execLt a b d s = .next
      { s with mem := s.mem.write ea.toNat (if (valueOf s 1 a).toInt < (valueOf s 2 b).toInt then 1#64 else 0#64)
               len := growAll s.len (touched s 1 [a, b, d])
               ptr := s.ptr + 4#64 } :=
  binaryOp_ok (f := aluLt) he h

/-- `EQ` completes (R106): `binaryOp_ok`, whose result is 1 when the operands are the same whole word. -/
theorem execEq_ok {a b d : Mode} {s : State} {ea : Int} (he : eaOf s 3 d = some ea)
    (h : AllValid s.cfg (touched s 1 [a, b, d])) :
    execEq a b d s = .next
      { s with mem := s.mem.write ea.toNat (if valueOf s 1 a = valueOf s 2 b then 1#64 else 0#64)
               len := growAll s.len (touched s 1 [a, b, d])
               ptr := s.ptr + 4#64 } := by
  rw [execEq, binaryOp_ok he h, aluEq_eq]

/-- Settles O14: `LT` with valid addresses by its law, at a first invalid one by that of its format, whatever it
computes; the words rejected are those of its row of R54. -/
theorem ltCompletesOrFaults : Obligations.LtCompletesOrFaults := by
  unfold Obligations.LtCompletesOrFaults
  refine ⟨fun a b d s ea he hv => execLt_ok he hv, ?_, fun a b d => encodeNat_three rfl, rejectsBadDigits rfl⟩
  intro a b d s _ pre e h
  exact binaryOp_bad (f := aluLt) h

/-- Settles O15: `EQ` with valid addresses by its law, at a first invalid one by that of its format, whatever it
computes; the words rejected are those of its row of R54. -/
theorem eqCompletesOrFaults : Obligations.EqCompletesOrFaults := by
  unfold Obligations.EqCompletesOrFaults
  refine ⟨fun a b d s ea he hv => execEq_ok he hv, ?_, fun a b d => encodeNat_three rfl, rejectsBadDigits rfl⟩
  intro a b d s _ pre e h
  exact binaryOp_bad (f := aluEq) h

end Sys2Proof.Machine

/-! The statement about a faulted core under the step and the host's operations (60_exceptions.md sections 3 and 4). -/

namespace Sys2Proof.Machine

/-- `take_output` removes the head, if there is one, and changes nothing else (R120). -/
theorem takeOutput_state (s : State) : (takeOutput s).2 = { s with outq := s.outq.tail } := by
  unfold takeOutput
  cases h : s.outq with
  | nil => exact congrArg (fun q => { s with outq := q }) h
  | cons v rest => rfl

/-- Only a suspended core is resumed (R116). -/
theorem resume_of_ne_needsInput {s : State} (h : s.status ≠ .needsInput) : resume s = s := by
  unfold resume
  split
  · contradiction
  · rfl

/-- The loop of `run` leaves a core that is not `Running` as it is (R116). -/
theorem runLoop_of_ne_running {s : State} (n : Nat) (h : s.status ≠ .running) : runLoop n s = some s := by
  unfold runLoop
  split
  · contradiction
  · contradiction
  · rfl

/-- `run` of a core neither `Running` nor suspended returns its status at once, with no effect (R116, D13). -/
theorem run_stopped {s : State} (n : Nat) (hr : s.status ≠ .running) (hi : s.status ≠ .needsInput) :
    run n s = some (s.status, s) := by
  rw [run, resume_of_ne_needsInput hi, runLoop_of_ne_running n hr, Option.map_some]

/-- Settles O54: a step with a next state starts `Running`, a run of a stopped core returns it as it is, and push, take
and drain change the queues alone. -/
theorem faultIsNeverCleared : Obligations.FaultIsNeverCleared := by
  unfold Obligations.FaultIsNeverCleared
  intro s r v n hs hr
  have hrun : s.status ≠ .running := by simp [hs]
  have hinp : s.status ≠ .needsInput := by simp [hs]
  refine ⟨fun t h => hrun (step_next_cases h).1, ?_, ⟨hs, hr⟩, ?_, ⟨hs, hr⟩⟩
  · rw [run_stopped n hrun hinp, hs]
  · rw [takeOutput_state]
    exact ⟨hs, hr⟩

end Sys2Proof.Machine

/-! The statement about the first step after reset (70_reset_and_hazards.md section 1). -/

namespace Sys2Proof.Machine

/-- `Reset(P, I)` makes a machine exactly when the program fits, and what its state is (R150, D27). -/
theorem newMachine_eq_some {c : Config} {p q : List Word} {s : State} : newMachine c p q = some s ↔
    p.length ≤ c.addrLimit ∧ s = { State.reset with mem := Memory.load 0 p, len := p.length, inq := q, cfg := c } := by
  unfold newMachine
  split
  next hfit => exact ⟨fun h => ⟨hfit, (Option.some.inj h).symm⟩, fun h => congrArg some h.2.symm⟩
  next hfit => exact ⟨nofun, fun h => absurd h.1 hfit⟩

/-- Settles O44: `ptr` is 0, which a program that fits makes a valid address below the length, so the fetch reads the first
word and grows nothing. -/
theorem firstInstructionIsAtZero : Obligations.FirstInstructionIsAtZero := by
  unfold Obligations.FirstInstructionIsAtZero
  intro c w p q s i hnew hd
  obtain ⟨hfit, hs⟩ := newMachine_eq_some.1 hnew
  have hptr : s.ptr.toInt = 0 := by rw [hs]; rfl
  have hvalid : validAddr s.cfg s.ptr.toInt = true := by
    rw [hptr, hs]
    exact validAddr_iff.2 ⟨Int.le_refl 0, Int.natCast_pos.2 (Nat.zero_lt_of_lt hfit)⟩
  have hfirst : s.mem.read s.ptr.toInt.toNat = w := by
    rw [hptr, hs]
    exact Memory.read_load (w :: p) 0 0 (Nat.le_refl 0)
  have hheld : s.ptr.toInt.toNat < s.len := by
    rw [hptr, hs]
    exact Nat.succ_pos p.length
  refine ⟨by rw [hs]; rfl, ?_⟩
  rw [step_decode_ok (by rw [hs]; rfl) hvalid (hfirst ▸ hd), State.grow_of_lt hheld]

end Sys2Proof.Machine

/-! The examined digits of a word and its encoding (R50, R63): the two low digits and one digit an operand, and no
digit above them. -/

namespace Sys2Proof

/-- The low digits of a mode field are the modes exactly when each digit is its mode (R50). -/
theorem mod_pow_eq_modeField {n : Nat} {ms : List Mode} :
    n % 10 ^ ms.length = modeField ms ↔ ms.map Mode.digit = (List.range ms.length).map fun k => n / 10 ^ k % 10 := by
  induction ms generalizing n with
  | nil => simp [modeField, Nat.mod_one]
  | cons m ms ih =>
    have hm := m.digit_lt
    have hlow : n % 10 ^ (ms.length + 1) = n % 10 + 10 * (n / 10 % 10 ^ ms.length) := by
      rw [Nat.pow_succ', Nat.mod_mul]
    have hhigh : ∀ k, n / 10 ^ (k + 1) = n / 10 / 10 ^ k := fun k => by
      rw [Nat.pow_succ', Nat.div_div_eq_div_mul]
    simp only [List.length_cons, modeField, List.map_cons, List.range_succ_eq_map, List.map_map, Function.comp_def,
      List.cons.injEq, Nat.succ_eq_add_one, hhigh, ← ih (n := n / 10), Nat.pow_zero, Nat.div_one, hlow]
    omega

/-- The examined digits are the encoding exactly when the opcode and each mode digit are read as the instruction's. -/
theorem mod_pow_eq_encodeNat {n : Nat} {i : Instr} :
    n % 10 ^ (i.width + 1) = encodeNat i ↔ i.opcode = n % 100 ∧ ModesAreDigits n i.modes := by
  have hop := i.opcode_lt
  have hsplit : n % 10 ^ (i.width + 1) = n % 100 + 100 * (n / 100 % 10 ^ i.modes.length) := by
    rw [Instr.width, Nat.pow_add' 10 i.modes.length 2, Nat.mod_mul]
  have hfield : ModesAreDigits n i.modes ↔ n / 100 % 10 ^ i.modes.length = modeField i.modes := by
    rw [mod_pow_eq_modeField, ModesAreDigits]
    simp only [modeDigit_succ]
  rw [hfield, hsplit, encodeNat]
  omega

/-- A word decodes to an instruction exactly by its examined digits (R50, R52, R61). -/
theorem decode_eq_ok_iff_mod {w : Word} {i : Instr} :
    decode w = .ok i ↔ i.wellFormed = true ∧ 0 ≤ w.toInt ∧ w.toNat % 10 ^ (i.width + 1) = encodeNat i := by
  rw [decode_eq_ok, mod_pow_eq_encodeNat]
  tauto

/-- The encoding has no digit above the examined ones. -/
theorem encodeNat_lt (i : Instr) : encodeNat i < 10 ^ (i.width + 1) := by
  have henc : encodeNat i % 10 ^ (i.width + 1) = encodeNat i := by
    obtain ⟨-, hop, -⟩ := encodingShape i
    exact mod_pow_eq_encodeNat.2 ⟨hop.symm, modesAreDigits_encodeNat i⟩
  exact henc ▸ Nat.mod_lt _ (Nat.pow_pos (by decide))

/-- Digits above the examined ones are ignored (R60, D7). -/
theorem decode_surplus {i : Instr} {w : Word} {extra : Nat} (h : i.wellFormed = true)
    (hw : w.toInt = encodeNat i + 10 ^ (i.width + 1) * extra) : decode w = .ok i := by
  have hcast : w.toInt = ((encodeNat i + 10 ^ (i.width + 1) * extra : Nat) : Int) := by rw [hw]; push_cast; rfl
  have hpos : 0 ≤ w.toInt := by omega
  have hnat : w.toNat = encodeNat i + 10 ^ (i.width + 1) * extra := by
    rw [← BitVec.toNat_toInt_of_msb w (by simpa [BitVec.msb_eq_toInt] using hpos), hcast, Int.toNat_natCast]
  refine decode_eq_ok_iff_mod.2 ⟨h, hpos, ?_⟩
  rw [hnat, Nat.add_mul_mod_self_left, Nat.mod_eq_of_lt (encodeNat_lt i)]

/-- Settles O2: `decode` reads exactly the digits that the encoding has. -/
theorem decodedExactlyByExaminedDigits : Obligations.DecodedExactlyByExaminedDigits := by
  unfold Obligations.DecodedExactlyByExaminedDigits
  exact fun w i => decode_eq_ok_iff_mod

/-- Settles O1: the encoding itself, and a word whose examined digits are the encoding's. -/
theorem decodeInvertsEncode : Obligations.DecodeInvertsEncode := by
  unfold Obligations.DecodeInvertsEncode
  exact fun i h => ⟨decode_encode h, fun w extra => decode_surplus h⟩

/-! The verdict on every word (R61). -/

/-- Every digit up to 2 is a mode (R76). -/
theorem exists_mode_digit {c : Nat} (h : c ≤ 2) : ∃ m : Mode, m.digit = c := by
  match c, h with
  | 0, _ => exact ⟨.position, rfl⟩
  | 1, _ => exact ⟨.immediate, rfl⟩
  | 2, _ => exact ⟨.relative, rfl⟩

/-- Digits up to 2 are modes, one an operand. -/
theorem exists_modes_digits {cs : List Nat} (h : ∀ c ∈ cs, c ≤ 2) : ∃ ms : List Mode, ms.map Mode.digit = cs := by
  induction cs with
  | nil => exact ⟨[], rfl⟩
  | cons c cs ih =>
    obtain ⟨hc, hcs⟩ := List.forall_mem_cons.1 h
    obtain ⟨m, rfl⟩ := exists_mode_digit hc
    obtain ⟨ms, rfl⟩ := ih hcs
    exact ⟨m :: ms, rfl⟩

/-- Each row of R54 has an instruction for every list of modes of its number of operands. -/
theorem exists_instr_of_roles {op : Nat} {rs : List Bool} {ms : List Mode} (hrs : Claims.rolesOf op = some rs)
    (hlen : ms.length = rs.length) : ∃ i : Instr, i.opcode = op ∧ i.modes = ms := by
  unfold Claims.rolesOf at hrs
  split at hrs
  · next hop =>
    cases hrs
    obtain ⟨a, b, d, rfl⟩ := List.length_eq_three.1 hlen
    obtain rfl | rfl | rfl | rfl := hop
    · exact ⟨.add a b d, rfl, rfl⟩
    · exact ⟨.mul a b d, rfl, rfl⟩
    · exact ⟨.lt a b d, rfl, rfl⟩
    · exact ⟨.eq a b d, rfl, rfl⟩
  split at hrs
  · next hop => cases hrs; obtain ⟨d, rfl⟩ := List.length_eq_one_iff.1 hlen; exact ⟨.inp d, hop.symm, rfl⟩
  split at hrs
  · next hop =>
    cases hrs
    obtain ⟨a, rfl⟩ := List.length_eq_one_iff.1 hlen
    obtain rfl | rfl := hop
    · exact ⟨.out a, rfl, rfl⟩
    · exact ⟨.arb a, rfl, rfl⟩
  split at hrs
  · next hop =>
    cases hrs
    obtain ⟨c, t, rfl⟩ := List.length_eq_two.1 hlen
    obtain rfl | rfl := hop
    · exact ⟨.jt c t, rfl, rfl⟩
    · exact ⟨.jf c t, rfl, rfl⟩
  split at hrs
  · next hop => cases hrs; obtain rfl := List.length_eq_zero_iff.1 hlen; exact ⟨.hlt, hop.symm, rfl⟩
  · cases hrs

/-- A word with a row of R54 and no bad mode digit decodes to the instruction its digits name (R61). -/
theorem exists_decode_of_good_digits {w : Word} {rs : List Bool} (hw : 0 ≤ w.toInt)
    (hrs : Claims.rolesOf (w.toNat % 100) = some rs) (hgood : ¬ Claims.HasBadDigit w rs) :
    ∃ i : Instr, decode w = .ok i ∧ i.opcode = w.toNat % 100 ∧
      i.modes.map Mode.digit = (List.range rs.length).map fun k => Claims.digitOf w (k + 1) := by
  have hdigit : ∀ k < rs.length, Claims.digitOf w (k + 1) ≤ 2 ∧
      (rs.getD k false = true → Claims.digitOf w (k + 1) ≠ 1) := fun k hk =>
    ⟨Nat.not_lt.1 fun h => hgood ⟨k, hk, .inl h⟩, fun hd h => hgood ⟨k, hk, .inr ⟨hd, h⟩⟩⟩
  obtain ⟨ms, hms⟩ := exists_modes_digits (cs := (List.range rs.length).map fun k => Claims.digitOf w (k + 1)) (by
    intro c hc
    obtain ⟨k, hk, rfl⟩ := List.mem_map.1 hc
    exact (hdigit k (List.mem_range.1 hk)).1)
  have hlen : ms.length = rs.length := by simpa using congrArg List.length hms
  obtain ⟨i, hop, rfl⟩ := exists_instr_of_roles hrs hlen
  have hadm : DestsAdmitted rs i.modes := by
    intro k hdest himm
    have hk : k < rs.length := by simpa [hlen] using (List.getElem?_eq_some_iff.1 himm).1
    have hone : some (Mode.immediate.digit) = some (Claims.digitOf w (k + 1)) := by
      simpa [himm, hk] using congrArg (·[k]?) hms
    exact (hdigit k hk).2 hdest (Option.some.inj hone).symm
  have hwf : i.wellFormed = true := (wellFormed_iff_destsAdmitted (hop ▸ hrs)).2 hadm
  refine ⟨i, decode_eq_ok.2 ⟨hw, hop, hwf, ?_⟩, hop, hms⟩
  rw [ModesAreDigits, hms, hlen]
  rfl

/-- Settles O3: the sign, the row of R54 and the mode digits, each with its verdict. -/
theorem decodeVerdictOnEveryWord : Obligations.DecodeVerdictOnEveryWord := by
  unfold Obligations.DecodeVerdictOnEveryWord
  refine fun w => ⟨fun hneg => by rw [decode, if_pos hneg], decode_unknown, fun rs hw hrs => ⟨?_, ?_⟩⟩
  · exact rejectsBadDigits hrs w hw rfl
  · exact exists_decode_of_good_digits hw hrs

/-- Settles O5: each word is read by the decoder. -/
theorem wordsOfTheTableDecode : Obligations.WordsOfTheTableDecode := by
  unfold Obligations.WordsOfTheTableDecode
  decide

end Sys2Proof

/-! The statements about the ALU and the write primitive (41_arithmetic.md section 1, 20_memory.md section 2). -/

namespace Sys2Proof.Machine

/-- The wrap of a signed 64-bit integer is that integer (R92). -/
theorem toInt_wrap64 {v : Int} (hl : -(2 ^ 63) ≤ v) (hu : v < 2 ^ 63) : (wrap64 v).toInt = v := by
  rw [wrap64, BitVec.toInt_ofInt]
  exact Int.bmod_eq_of_le (by omega) (by omega)

/-- The wrap is congruent modulo 2^64 (D1). -/
theorem toInt_wrap64_emod (v : Int) : (wrap64 v).toInt % 2 ^ 64 = v % 2 ^ 64 := by
  rw [wrap64, BitVec.toInt_ofInt]
  exact Int.bmod_emod

/-- Settles O6: sum and product are each the wrap of the exact one. -/
theorem aluResultsExactOrWrapped : Obligations.AluResultsExactOrWrapped := by
  unfold Obligations.AluResultsExactOrWrapped
  exact fun a b => ⟨toInt_wrap64, toInt_wrap64, toInt_wrap64_emod _, toInt_wrap64_emod _⟩

/-- `MemWrite` to an address that fails the check (R33, R35). -/
theorem memWrite_bad {w : Option Word} {a : Int} {v : Word} {s : State} (h : validAddr s.cfg a = false) :
    memWrite w a v s = .raised (s.raise .invalidAddress w (some a)) := by
  rw [memWrite, checkAddr_bad h, Acc.bind_raised]

/-- Settles O9: the check, and the laws of the one write. -/
theorem memoryWriteRule : Obligations.MemoryWriteRule := by
  unfold Obligations.MemoryWriteRule
  intro w a v s hwf
  refine ⟨memWrite_bad, fun hv => ⟨s.mem.write a.toNat v, memWrite_ok hv, Memory.wf_write hwf, ?_, ?_⟩⟩
  · exact Memory.read_write_same hwf _ _
  · exact fun b hb => Memory.read_write_other hwf hb v

end Sys2Proof.Machine

/-! What `exec` answers on every instruction and state, said once: one state where the instruction completes, one for
each fault, and the suspension of `IN` (R70, R79, R136). -/

namespace Sys2Proof.Machine

/-- The memory after instruction `i` completes (R79): the one store, where there is one. -/
def memAfter (i : Instr) (s : State) : Memory :=
  match Claims.storeOf i s with
  | some (ea, v) => s.mem.write ea.toNat v
  | none => s.mem

/-- `ptr` after instruction `i` completes (R13): a taken jump loads it, a halt leaves it. -/
def ptrAfter (i : Instr) (s : State) : Word :=
  match i with
  | .jt c g => if valueOf s 1 c ≠ 0#64 then valueOf s 2 g else s.ptr + 3#64
  | .jf c g => if valueOf s 1 c = 0#64 then valueOf s 2 g else s.ptr + 3#64
  | .hlt => s.ptr
  | _ => s.ptr + BitVec.ofNat 64 i.width

/-- The relative base after instruction `i` completes (R110). -/
def rbAfter (i : Instr) (s : State) : Word :=
  match i with
  | .arb a => wrap64 (s.rb.toInt + (valueOf s 1 a).toInt)
  | _ => s.rb

/-- The output sequence after instruction `i` completes (R96). -/
def outqAfter (i : Instr) (s : State) : List Word :=
  match i with
  | .out a => s.outq ++ [valueOf s 1 a]
  | _ => s.outq

/-- The state in which instruction `i` completes. -/
def completed (i : Instr) (s : State) : State :=
  { s with
    mem := memAfter i s
    len := growAll s.len (touched s 1 i.modes)
    ptr := ptrAfter i s
    rb := rbAfter i s
    inq := if i.opcode = 3 then s.inq.tail else s.inq
    outq := outqAfter i s
    status := if i.opcode = 99 then .halted else s.status }

/-- The state of an instruction with an immediate destination, which no word decodes to (R59, log entry 4). -/
def modeFault (i : Instr) (s : State) : State :=
  { s with
    len := growAll s.len (touched s 1 i.modes)
    status := .fault
    frec := some ⟨.invalidMode, s.ptr, s.instrWord, none⟩ }

/-! The instructions that complete. -/

/-- `ADD` completes (R90): `binaryOp_ok` with the wrapped sum. -/
theorem execAdd_ok {a b d : Mode} {s : State} {ea : Int} (he : eaOf s 3 d = some ea)
    (h : AllValid s.cfg (touched s 1 [a, b, d])) :
    execAdd a b d s = .next
      { s with mem := s.mem.write ea.toNat (wrap64 ((valueOf s 1 a).toInt + (valueOf s 2 b).toInt))
               len := growAll s.len (touched s 1 [a, b, d])
               ptr := s.ptr + 4#64 } :=
  binaryOp_ok (f := aluAdd) he h

/-- `MUL` completes (R91): `binaryOp_ok` with the wrapped product. -/
theorem execMul_ok {a b d : Mode} {s : State} {ea : Int} (he : eaOf s 3 d = some ea)
    (h : AllValid s.cfg (touched s 1 [a, b, d])) :
    execMul a b d s = .next
      { s with mem := s.mem.write ea.toNat (wrap64 ((valueOf s 1 a).toInt * (valueOf s 2 b).toInt))
               len := growAll s.len (touched s 1 [a, b, d])
               ptr := s.ptr + 4#64 } :=
  binaryOp_ok (f := aluMul) he h

/-- A completed instruction of format F3 is a store, and nothing else. -/
theorem completed_binary {i : Instr} {a b d : Mode} {s : State} {ea : Int} {v : Word} (hm : i.modes = [a, b, d])
    (hst : Claims.storeOf i s = some (ea, v)) :
    completed i s = { s with mem := s.mem.write ea.toNat v
                             len := growAll s.len (touched s 1 [a, b, d])
                             ptr := s.ptr + 4#64 } := by
  have hmem : memAfter i s = s.mem.write ea.toNat v := by rw [memAfter, hst]
  rw [completed, hmem, hm]
  cases i with
  | add _ _ _ | mul _ _ _ | lt _ _ _ | eq _ _ _ => rfl
  | inp _ | out _ | jt _ _ | jf _ _ | arb _ | hlt => cases hm

/-- Every well-formed instruction completes when the addresses it touches are valid and `IN` has an input. -/
theorem exec_completes {i : Instr} {s : State} (hwf : i.wellFormed = true) (hq : i.opcode = 3 → s.inq ≠ [])
    (h : AllValid s.cfg (touched s 1 i.modes)) : exec i s = .next (completed i s) := by
  cases i with
  | add a b d =>
    obtain ⟨ea, he⟩ := eaOf_dest hwf s 3
    rw [completed_binary rfl (by rw [Claims.storeOf, he]; rfl)]
    exact execAdd_ok he h
  | mul a b d =>
    obtain ⟨ea, he⟩ := eaOf_dest hwf s 3
    rw [completed_binary rfl (by rw [Claims.storeOf, he]; rfl)]
    exact execMul_ok he h
  | lt a b d =>
    obtain ⟨ea, he⟩ := eaOf_dest hwf s 3
    rw [completed_binary rfl (by rw [Claims.storeOf, he]; rfl)]
    exact execLt_ok he h
  | eq a b d =>
    obtain ⟨ea, he⟩ := eaOf_dest hwf s 3
    rw [completed_binary rfl (by rw [Claims.storeOf, he]; rfl)]
    exact execEq_ok he h
  | inp d =>
    obtain ⟨ea, he⟩ := eaOf_dest hwf s 1
    obtain ⟨v, rest, hin⟩ := List.exists_cons_of_ne_nil (hq rfl)
    have hmem : memAfter (.inp d) s = s.mem.write ea.toNat v := by simp [memAfter, Claims.storeOf, hin, he]
    have hrest : s.inq.tail = rest := by rw [hin]; rfl
    rw [completed, hmem, hrest]
    exact execInp_ok hin he h
  | out a => exact execOut_ok h
  | jt c t => exact execJt_ok h
  | jf c t => exact execJf_ok h
  | arb a => exact execArb_ok h
  | hlt => exact exec_hlt s

/-! The instructions that fault. -/

/-- `ARB` faults at the first invalid address (R110, R136). -/
theorem execArb_bad {a : Mode} {s : State} {pre : List Int} {e : Int}
    (h : FirstInvalid s.cfg (touched s 1 [a]) pre e) : execArb a s = .next (addressFault s pre e) := by
  rw [touched_one] at h
  rw [execArb, source_bad h, Acc.done_raised, faultAt_instrWord]

/-- No first invalid address where none is touched. -/
theorem not_firstInvalid_nil {c : Config} {pre : List Int} {a : Int} : ¬ FirstInvalid c [] pre a := by
  rintro ⟨hp, -⟩
  simp at hp

/-- Every instruction faults at the first invalid address it touches, `IN` if it has an input (R78, R136). -/
theorem exec_addressFault {i : Instr} {s : State} {pre : List Int} {e : Int} (hq : i.opcode = 3 → s.inq ≠ [])
    (h : FirstInvalid s.cfg (touched s 1 i.modes) pre e) : exec i s = .next (addressFault s pre e) := by
  cases i with
  | add a b d => exact binaryOp_bad (f := aluAdd) h
  | mul a b d => exact binaryOp_bad (f := aluMul) h
  | inp d => exact execInp_bad (hq rfl) h
  | out a => exact execOut_bad h
  | jt c t => exact jumpOp_bad (taken := testTrue) h
  | jf c t => exact jumpOp_bad (taken := fun v => !testTrue v) h
  | lt a b d => exact binaryOp_bad (f := aluLt) h
  | eq a b d => exact binaryOp_bad (f := aluEq) h
  | arb a => exact execArb_bad h
  | hlt => exact absurd h not_firstInvalid_nil

/-- `DstAddr` with its word fetch, of an immediate destination (R59): the mode fault after the fetch. -/
theorem dest_immediate {w : Option Word} {k : Nat} {s : State} (h : AllValid s.cfg (touchedBy s k .immediate)) :
    dest w k .immediate s =
      .raised ({ s with len := growAll s.len (touchedBy s k .immediate) }.raise .invalidMode w none) := by
  have hw : validAddr s.cfg (s.ptr.toInt + k) = true := h _ List.mem_cons_self
  rw [dest, operandWord_ok hw, Acc.bind_ok, dstAddr_none rfl]
  rfl

/-- Format F3 with an immediate destination, every address valid. -/
theorem binaryOp_immediate {f : Word → Word → Word} {a b : Mode} {s : State}
    (h : AllValid s.cfg (touched s 1 [a, b, .immediate])) :
    binaryOp f a b .immediate s = .next
      ({ s with len := growAll s.len (touched s 1 [a, b, .immediate]) }.raise .invalidMode s.instrWord none) := by
  rw [touched_three] at h ⊢
  obtain ⟨ha, h⟩ := List.forall_mem_append.1 h
  obtain ⟨hb, hd⟩ := List.forall_mem_append.1 h
  simp only [binaryOp, resolveSSD, source_ok ha, Acc.bind_ok]
  rw [source_ok (s := { s with len := growAll s.len (touchedBy s 1 a) }) hb]
  simp only [Acc.bind_ok, touchedBy_len, ← growAll_append]
  rw [dest_immediate (s := { s with len := growAll s.len (touchedBy s 1 a ++ touchedBy s 2 b) }) hd]
  simp only [Acc.bind_raised, Acc.done_raised, touchedBy_len, ← growAll_append, List.append_assoc]

/-- `IN` with an immediate destination, its operand word's address valid. -/
theorem execInp_immediate {s : State} (hq : s.inq ≠ []) (h : AllValid s.cfg (touched s 1 [.immediate])) :
    execInp .immediate s = .next
      ({ s with len := growAll s.len (touched s 1 [.immediate]) }.raise .invalidMode s.instrWord none) := by
  obtain ⟨v, rest, hin⟩ := List.exists_cons_of_ne_nil hq
  rw [touched_one] at h ⊢
  rw [execInp_cons hin, dest_immediate h, Acc.done_raised]

theorem eq_immediate_of_not_isDest {m : Mode} (h : m.isDest = false) : m = .immediate := by
  cases m with
  | immediate => rfl
  | position | relative => cases h

/-- An instruction that is not well-formed ends in the mode fault when the addresses it touches are valid. -/
theorem exec_modeFault {i : Instr} {s : State} (hwf : i.wellFormed = false) (hq : i.opcode = 3 → s.inq ≠ [])
    (h : AllValid s.cfg (touched s 1 i.modes)) : exec i s = .next (modeFault i s) := by
  cases i with
  | add a b d => obtain rfl := eq_immediate_of_not_isDest hwf; exact binaryOp_immediate (f := aluAdd) h
  | mul a b d => obtain rfl := eq_immediate_of_not_isDest hwf; exact binaryOp_immediate (f := aluMul) h
  | lt a b d => obtain rfl := eq_immediate_of_not_isDest hwf; exact binaryOp_immediate (f := aluLt) h
  | eq a b d => obtain rfl := eq_immediate_of_not_isDest hwf; exact binaryOp_immediate (f := aluEq) h
  | inp d => obtain rfl := eq_immediate_of_not_isDest hwf; exact execInp_immediate (hq rfl) h
  | out _ | jt _ _ | jf _ _ | arb _ | hlt => cases hwf

/-! The law of `exec`. -/

/-- The four ways an instruction ends. -/
inductive ExecEnds (i : Instr) (s : State) : State → Prop where
  | suspended (hop : i.opcode = 3) (hq : s.inq = []) : ExecEnds i s { s with status := .needsInput }
  | addressFault (pre : List Int) (e : Int) (h : FirstInvalid s.cfg (touched s 1 i.modes) pre e) :
      ExecEnds i s (addressFault s pre e)
  | modeFault (hwf : i.wellFormed = false) : ExecEnds i s (modeFault i s)
  | completed (hwf : i.wellFormed = true) (hq : i.opcode = 3 → s.inq ≠ [])
      (h : AllValid s.cfg (touched s 1 i.modes)) : ExecEnds i s (completed i s)

theorem eq_inp_of_opcode {i : Instr} (h : i.opcode = 3) : ∃ d, i = .inp d := by
  cases i with
  | inp d => exact ⟨d, rfl⟩
  | _ => cases h

/-- Every instruction has a next state, in one of the four ways (R70). -/
theorem exec_total (i : Instr) (s : State) : ∃ t : State, exec i s = .next t ∧ ExecEnds i s t := by
  by_cases hsusp : i.opcode = 3 ∧ s.inq = []
  · obtain ⟨hop, hq⟩ := hsusp
    obtain ⟨d, rfl⟩ := eq_inp_of_opcode hop
    exact ⟨_, execInp_nil hq, .suspended hop hq⟩
  · have hq : i.opcode = 3 → s.inq ≠ [] := not_and.1 hsusp
    obtain hv | ⟨pre, e, hbad⟩ := allValid_or_firstInvalid s.cfg (touched s 1 i.modes)
    · cases hwf : i.wellFormed with
      | true => exact ⟨_, exec_completes hwf hq hv, .completed hwf hq hv⟩
      | false => exact ⟨_, exec_modeFault hwf hq hv, .modeFault hwf⟩
    · exact ⟨_, exec_addressFault hq hbad, .addressFault pre e hbad⟩

theorem execEnds_of_exec {i : Instr} {s t : State} (h : exec i s = .next t) : ExecEnds i s t := by
  obtain ⟨u, hu, hends⟩ := exec_total i s
  obtain rfl : u = t := Host.Outcome.next.inj (hu.symm.trans h)
  exact hends

/-- Settles O12: `ADD` by the law of its format. -/
theorem addCompletes : Obligations.AddCompletes := by
  unfold Obligations.AddCompletes
  exact fun a b d s ea he h => execAdd_ok he h

/-- Settles O13: `MUL` by the law of its format. -/
theorem mulCompletes : Obligations.MulCompletes := by
  unfold Obligations.MulCompletes
  exact fun a b d s ea he h => execMul_ok he h

/-- Settles O20: `ARB` by its law, the base's sum that of the ALU. -/
theorem adjustRelativeBaseCompletes : Obligations.AdjustRelativeBaseCompletes := by
  unfold Obligations.AdjustRelativeBaseCompletes
  exact fun a s h => execArb_ok h

/-- Settles O22: the fault comes before the destination's mode matters, so well-formedness is not used. -/
theorem firstInvalidOperandAddressFaults : Obligations.FirstInvalidOperandAddressFaults := by
  unfold Obligations.FirstInvalidOperandAddressFaults
  exact fun i s _ hq pre e h => exec_addressFault hq h

end Sys2Proof.Machine

/-! What each instruction leaves unchanged, field by field, from the law of `exec`. -/

namespace Sys2Proof.Machine

/-- `t` is `s` with a fault taken at the unchanged `ptr` (R136): only the length, which may have grown, the status and
the record differ. -/
def Faulted (s t : State) : Prop :=
  ∃ (n : Nat) (r : FaultRecord), s.len ≤ n ∧ r.ptr = s.ptr ∧ t = { s with len := n, status := .fault, frec := some r }

/-- The ends of an instruction, the two faults as one. -/
theorem exec_next_cases {i : Instr} {s t : State} (h : exec i s = .next t) :
    Faulted s t ∨ (i.opcode = 3 ∧ s.inq = [] ∧ t = { s with status := .needsInput }) ∨
    (i.wellFormed = true ∧ (i.opcode = 3 → s.inq ≠ []) ∧ AllValid s.cfg (touched s 1 i.modes) ∧ t = completed i s) := by
  cases execEnds_of_exec h with
  | suspended hop hq => exact .inr (.inl ⟨hop, hq, rfl⟩)
  | addressFault pre e _ => exact .inl ⟨_, _, le_growAll _ _, rfl, rfl⟩
  | modeFault _ => exact .inl ⟨_, _, le_growAll _ _, rfl, rfl⟩
  | completed hwf hq hv => exact .inr (.inr ⟨hwf, hq, hv, rfl⟩)

/-- `ea` is the address that the destination of `i` names, in the table's roles (R54). -/
def NamesDest (i : Instr) (s : State) (ea : Int) : Prop :=
  (i.opcode = 3 ∧ ∃ d, i.modes = [d] ∧ eaOf s 1 d = some ea) ∨
  (i.opcode ∈ [1, 2, 7, 8] ∧ ∃ a b d, i.modes = [a, b, d] ∧ eaOf s 3 d = some ea)

theorem namesDest_three {i : Instr} {a b d : Mode} {s : State} {ea : Int} (hm : i.modes = [a, b, d])
    (h : NamesDest i s ea) : eaOf s 3 d = some ea := by
  obtain ⟨-, d', hm', -⟩ | ⟨-, a', b', d', hm', he⟩ := h
  · cases hm.symm.trans hm'
  · cases hm.symm.trans hm'
    exact he

theorem namesDest_one {i : Instr} {d : Mode} {s : State} {ea : Int} (hm : i.modes = [d]) (h : NamesDest i s ea) :
    eaOf s 1 d = some ea := by
  obtain ⟨-, d', hm', he⟩ | ⟨-, a', b', d', hm', -⟩ := h
  · cases hm.symm.trans hm'
    exact he
  · cases hm.symm.trans hm'

/-- A store goes to the address of the destination. -/
theorem storeOf_namesDest {i : Instr} {s : State} {ea : Int} {v : Word} (h : Claims.storeOf i s = some (ea, v)) :
    NamesDest i s ea := by
  cases i with
  | add a b d | mul a b d | lt a b d | eq a b d =>
    obtain ⟨e, he, hev⟩ := Option.map_eq_some_iff.1 h
    cases hev
    exact .inr ⟨by simp [Instr.opcode], a, b, d, rfl, he⟩
  | inp d =>
    obtain ⟨x, -, hmap⟩ := Option.bind_eq_some_iff.1 h
    obtain ⟨e, he, hev⟩ := Option.map_eq_some_iff.1 hmap
    cases hev
    exact .inl ⟨rfl, d, rfl, he⟩
  | out _ | jt _ _ | jf _ _ | arb _ | hlt => cases h

/-- The destination is among the addresses the instruction touches (R78). -/
theorem NamesDest.mem_touched {i : Instr} {s : State} {ea : Int} (h : NamesDest i s ea) :
    ea ∈ touched s 1 i.modes := by
  obtain ⟨-, d, hm, he⟩ | ⟨-, a, b, d, hm, he⟩ := h
  · simp [hm, touched, touchedBy, he]
  · simp [hm, touched, touchedBy, he]

/-- A completed instruction changes no word but that at its destination (R79). -/
theorem namesDest_of_completed {i : Instr} {s : State} {x : Nat} (hwf : s.mem.wf = true)
    (hv : AllValid s.cfg (touched s 1 i.modes)) (h : (completed i s).mem.read x ≠ s.mem.read x) :
    NamesDest i s x := by
  cases hst : Claims.storeOf i s with
  | none => simp [completed, memAfter, hst] at h
  | some p =>
    obtain ⟨ea, v⟩ := p
    have hdest : NamesDest i s ea := storeOf_namesDest hst
    obtain ⟨hpos, -⟩ := validAddr_iff.1 (hv ea hdest.mem_touched)
    have hx : x = ea.toNat := Decidable.byContradiction fun hne =>
      h (by simp [completed, memAfter, hst, Memory.read_write_other hwf hne])
    rwa [hx, Int.toNat_of_nonneg hpos]

section
variable {i : Instr} {s t : State} (h : exec i s = .next t)
include h

theorem exec_cfg : t.cfg = s.cfg := by
  obtain ⟨n, r, -, -, rfl⟩ | ⟨-, -, rfl⟩ | ⟨-, -, -, rfl⟩ := exec_next_cases h <;> rfl

theorem exec_len_le : s.len ≤ t.len := by
  obtain ⟨n, r, hn, -, rfl⟩ | ⟨-, -, rfl⟩ | ⟨-, -, -, rfl⟩ := exec_next_cases h
  · exact hn
  · exact Nat.le_refl _
  · exact le_growAll _ _

/-- Only `IN` removes from the queue, and then its head (R17). -/
theorem exec_inq : t.inq = s.inq ∨ (i.opcode = 3 ∧ ∃ v, s.inq = v :: t.inq) := by
  obtain ⟨n, r, -, -, rfl⟩ | ⟨-, -, rfl⟩ | ⟨-, hq, -, rfl⟩ := exec_next_cases h
  · exact .inl rfl
  · exact .inl rfl
  · by_cases hop : i.opcode = 3
    · obtain ⟨v, rest, hin⟩ := List.exists_cons_of_ne_nil (hq hop)
      exact .inr ⟨hop, v, by simp [completed, hop, hin]⟩
    · exact .inl (if_neg hop)

theorem exec_inq_of_ne (hop : i.opcode ≠ 3) : t.inq = s.inq :=
  (exec_inq h).resolve_right fun hr => hop hr.1

/-- Only `OUT` appends an output, and then one (R18). -/
theorem exec_outq : t.outq = s.outq ∨ (i.opcode = 4 ∧ ∃ v, t.outq = s.outq ++ [v]) := by
  obtain ⟨n, r, -, -, rfl⟩ | ⟨-, -, rfl⟩ | ⟨-, -, -, rfl⟩ := exec_next_cases h
  · exact .inl rfl
  · exact .inl rfl
  · cases i with
    | out a => exact .inr ⟨rfl, _, rfl⟩
    | _ => exact .inl rfl

theorem exec_outq_of_ne (hop : i.opcode ≠ 4) : t.outq = s.outq :=
  (exec_outq h).resolve_right fun hr => hop hr.1

/-- Only `IN` and `HLT` change the status without a fault, and only a fault changes the record (R19, R21). -/
theorem exec_status (hin : i.opcode ≠ 3) (hhlt : i.opcode ≠ 99) : Claims.SameStatusOrFault s t := by
  obtain ⟨n, r, -, -, rfl⟩ | ⟨hop, -, -⟩ | ⟨-, -, -, rfl⟩ := exec_next_cases h
  · exact .inr rfl
  · exact absurd hop hin
  · exact .inl ⟨if_neg hhlt, rfl⟩

/-- A word changes only as the destination (R43). -/
theorem exec_namesDest {x : Nat} (hwf : s.mem.wf = true) (hx : t.mem.read x ≠ s.mem.read x) : NamesDest i s x := by
  obtain ⟨n, r, -, -, rfl⟩ | ⟨-, -, rfl⟩ | ⟨-, -, hv, rfl⟩ := exec_next_cases h
  · exact absurd rfl hx
  · exact absurd rfl hx
  · exact namesDest_of_completed hwf hv hx

/-- An instruction that has no store leaves the memory. -/
theorem exec_mem (hst : Claims.storeOf i s = none) : t.mem = s.mem := by
  obtain ⟨n, r, -, -, rfl⟩ | ⟨-, -, rfl⟩ | ⟨-, -, -, rfl⟩ := exec_next_cases h
  · rfl
  · rfl
  · simp [completed, memAfter, hst]

/-- A core that comes to be faulted took a fault (R136). -/
theorem exec_faulted (hs : s.status ≠ .fault) (ht : t.status = .fault) : Faulted s t := by
  obtain hf | ⟨-, -, rfl⟩ | ⟨-, -, -, rfl⟩ := exec_next_cases h
  · exact hf
  · cases ht
  · have hstatus : (if i.opcode = 99 then Status.halted else s.status) = .fault := ht
    split at hstatus
    · cases hstatus
    · exact absurd hstatus hs

end

/-- Settles O23: the frame of `exec`, for the instructions of format F3. -/
theorem storingInstructionsFrame : Obligations.StoringInstructionsFrame := by
  unfold Obligations.StoringInstructionsFrame
  intro i a b d s t hi hwf h
  have hshape : i.modes = [a, b, d] ∧ i.opcode ≠ 3 ∧ i.opcode ≠ 4 ∧ i.opcode ≠ 9 ∧ i.opcode ≠ 99 := by
    obtain rfl | rfl | rfl | rfl := hi <;> exact ⟨rfl, nofun, nofun, nofun, nofun⟩
  obtain ⟨hm, h3, h4, h9, h99⟩ := hshape
  refine ⟨exec_rb_of_not_arb h9 h, exec_inq_of_ne h h3, exec_outq_of_ne h h4, exec_cfg h, exec_len_le h,
    exec_status h h3 h99, fun x hx => ?_⟩
  exact Decidable.byContradiction fun hne => hx (namesDest_three hm (exec_namesDest h hwf hne))

/-- Settles O24: the frame of `exec`, and the three ends of `IN` for the status. -/
theorem inputFrame : Obligations.InputFrame := by
  unfold Obligations.InputFrame
  intro d s t hwf h
  refine ⟨exec_rb_of_not_arb (i := .inp d) nofun h, exec_outq_of_ne h nofun, exec_cfg h, exec_len_le h, ?_, ?_, ?_⟩
  · obtain hq | ⟨-, v, hq⟩ := exec_inq h
    · exact .inl hq
    · exact .inr (by rw [hq, List.tail_cons])
  · obtain ⟨n, r, -, -, rfl⟩ | ⟨-, hq, rfl⟩ | ⟨-, -, -, rfl⟩ := exec_next_cases h
    · exact .inl (.inr rfl)
    · exact .inr ⟨hq, rfl, rfl⟩
    · exact .inl (.inl ⟨rfl, rfl⟩)
  · intro x hx
    exact Decidable.byContradiction fun hne => hx (namesDest_one rfl (exec_namesDest h hwf hne))

/-- Settles O25: the frame of `exec`, and the two ends of `OUT` for the output sequence. -/
theorem outputFrame : Obligations.OutputFrame := by
  unfold Obligations.OutputFrame
  intro a s t h
  refine ⟨exec_rb_of_not_arb (i := .out a) nofun h, exec_inq_of_ne h nofun, exec_cfg h, exec_len_le h,
    exec_status h nofun nofun, fun x => by rw [exec_mem h rfl], ?_⟩
  obtain ⟨n, r, -, -, rfl⟩ | ⟨hop, -⟩ | ⟨-, -, -, rfl⟩ := exec_next_cases h
  · exact .inl rfl
  · cases hop
  · exact .inr rfl

/-- Settles O26: the frame of `exec`, for both jumps. -/
theorem jumpFrame : Obligations.JumpFrame := by
  unfold Obligations.JumpFrame
  intro i c g s t hi h
  have hshape : Claims.storeOf i s = none ∧ i.opcode ≠ 3 ∧ i.opcode ≠ 4 ∧ i.opcode ≠ 9 ∧ i.opcode ≠ 99 := by
    obtain rfl | rfl := hi <;> exact ⟨rfl, nofun, nofun, nofun, nofun⟩
  obtain ⟨hst, h3, h4, h9, h99⟩ := hshape
  exact ⟨exec_rb_of_not_arb h9 h, exec_inq_of_ne h h3, exec_outq_of_ne h h4, exec_cfg h, exec_len_le h,
    exec_status h h3 h99, fun x => by rw [exec_mem h hst]⟩

/-- Settles O27: the frame of `exec`; a fault changes no register. -/
theorem adjustRelativeBaseFrame : Obligations.AdjustRelativeBaseFrame := by
  unfold Obligations.AdjustRelativeBaseFrame
  intro a s t h
  refine ⟨exec_inq_of_ne h nofun, exec_outq_of_ne h nofun, exec_cfg h, exec_len_le h,
    exec_status h nofun nofun, fun x => by rw [exec_mem h rfl], fun hs ht => ?_⟩
  obtain ⟨n, r, -, -, rfl⟩ := exec_faulted h hs ht
  rfl

end Sys2Proof.Machine

/-! The statements about one step (40_step_and_operands.md section 1), from those about the fetch and `exec`. -/

namespace Sys2Proof.Machine

/-- The step at a `ptr` that is no valid address (R71). -/
theorem step_fetch_fault {s : State} (hrun : s.status = .running) (hv : validAddr s.cfg s.ptr.toInt = false) :
    step s = .next (s.raise .invalidAddress none (some s.ptr.toInt)) := by
  rw [step_running hrun, fetchInstr_bad hv, Acc.done_raised]

/-- An address that fails the check (R33). -/
theorem validAddr_eq_false {c : Config} {a : Int} : validAddr c a = false ↔ a < 0 ∨ (c.addrLimit : Int) ≤ a := by
  rw [← Bool.not_eq_true, validAddr_iff]
  omega

/-- The step on a word that decodes, `ptr` below the length: the fetch changes nothing. -/
theorem step_decode_ok_of_lt {s : State} {i : Instr} (hrun : s.status = .running)
    (hv : validAddr s.cfg s.ptr.toInt = true) (hl : s.ptr.toInt.toNat < s.len)
    (hd : decode (s.mem.read s.ptr.toInt.toNat) = .ok i) : step s = exec i s := by
  rw [step_decode_ok hrun hv hd, State.grow_of_lt hl]

/-- A fault after the growth of the fetch is a fault of the step. -/
theorem Faulted.of_grow {s t : State} {a : Nat} (h : Faulted (s.grow a) t) : Faulted s t := by
  obtain ⟨n, r, hn, hr, rfl⟩ := h
  exact ⟨n, r, Nat.le_trans (le_growLen s.len a) hn, hr, rfl⟩

/-- A step takes a fault of its fetch, or runs the decoded instruction in the grown state (R70). -/
theorem step_faulted_or_exec {s t : State} (h : step s = .next t) :
    Faulted s t ∨ ∃ i, validAddr s.cfg s.ptr.toInt = true ∧ decode (s.mem.read s.ptr.toInt.toNat) = .ok i ∧
      exec i (s.grow s.ptr.toInt.toNat) = .next t := by
  obtain ⟨-, ⟨-, rfl⟩ | ⟨e, -, -, rfl⟩ | hx⟩ := step_next_cases h
  · exact .inl ⟨s.len, _, Nat.le_refl _, rfl, rfl⟩
  · exact .inl ⟨_, _, le_growLen _ _, rfl, rfl⟩
  · exact .inr hx

/-- Settles O28: the fetch of a word that decodes, and below the length it grows nothing. -/
theorem stepRunsDecodedInstruction : Obligations.StepRunsDecodedInstruction := by
  unfold Obligations.StepRunsDecodedInstruction
  exact fun s i hrun hv hd => ⟨step_decode_ok hrun hv hd, fun hl => step_decode_ok_of_lt hrun hv hl hd⟩

/-- Settles O29: such a `ptr` fails the check, so the fetch faults. -/
theorem fetchOfInvalidAddressFaults : Obligations.FetchOfInvalidAddressFaults := by
  unfold Obligations.FetchOfInvalidAddressFaults
  exact fun s hrun hbad => step_fetch_fault hrun (validAddr_eq_false.2 hbad)

/-- Settles O30: the step's fault on a rejected word, for each cause. -/
theorem illegalWordFaults : Obligations.IllegalWordFaults := by
  unfold Obligations.IllegalWordFaults
  exact fun s hrun hv => ⟨step_decode_error hrun hv, step_decode_error hrun hv⟩

/-- Settles O31: each other status has its own answer in `stepEnabled`. -/
theorem noStepUnlessRunning : Obligations.NoStepUnlessRunning := by
  unfold Obligations.NoStepUnlessRunning
  intro s
  refine ⟨fun h => ?_, fun h => ?_, fun h => ?_⟩ <;> simp only [step, stepEnabled, h]

/-- A running core has a next state: the fetch faults, the word is rejected, or `exec` is total (R70). -/
theorem step_total {s : State} (hrun : s.status = .running) : ∃ t : State, step s = .next t := by
  cases hv : validAddr s.cfg s.ptr.toInt with
  | false => exact ⟨_, step_fetch_fault hrun hv⟩
  | true =>
    cases hd : decode (s.mem.read s.ptr.toInt.toNat) with
    | error e => exact ⟨_, step_decode_error hrun hv hd⟩
    | ok i =>
      obtain ⟨t, ht, -⟩ := exec_total i (s.grow s.ptr.toInt.toNat)
      exact ⟨t, (step_decode_ok hrun hv hd).trans ht⟩

/-- Settles O32: the fetch and `exec` answer on every state (`step_total`). -/
theorem runningCoreAlwaysSteps : Obligations.RunningCoreAlwaysSteps := by
  unfold Obligations.RunningCoreAlwaysSteps
  exact fun s => step_total

/-- Settles O34: a fault keeps the outputs, and `exec` appends by `OUT` alone. -/
theorem stepOnlyAppendsOutputs : Obligations.StepOnlyAppendsOutputs := by
  unfold Obligations.StepOnlyAppendsOutputs
  intro s t h
  obtain ⟨n, r, -, -, rfl⟩ | ⟨i, -, hd, hx⟩ := step_faulted_or_exec h
  · exact .inl rfl
  · obtain ⟨-, hop⟩ := opcode_of_decode hd
    exact (exec_outq hx).imp_right fun ⟨h4, v, hv⟩ => ⟨hop.symm.trans h4, v, hv⟩

/-- Settles O35: a fault keeps the queue, and `exec` takes its head by `IN` alone. -/
theorem stepConsumesInputsInOrder : Obligations.StepConsumesInputsInOrder := by
  unfold Obligations.StepConsumesInputsInOrder
  intro s t h
  obtain ⟨n, r, -, -, rfl⟩ | ⟨i, -, hd, hx⟩ := step_faulted_or_exec h
  · exact .inl rfl
  · obtain ⟨-, hop⟩ := opcode_of_decode hd
    exact (exec_inq hx).imp_right fun ⟨h3, v, hv⟩ => ⟨hop.symm.trans h3, v, hv⟩

theorem step_cfg {s t : State} (h : step s = .next t) : t.cfg = s.cfg := by
  obtain ⟨n, r, -, -, rfl⟩ | ⟨i, -, -, hx⟩ := step_faulted_or_exec h
  · rfl
  · exact (exec_cfg hx).trans (s.grow_cfg _)

/-- Settles O36: the fetch, a fault and `exec` each keep or grow the length. -/
theorem stepNeverShrinksMemory : Obligations.StepNeverShrinksMemory := by
  unfold Obligations.StepNeverShrinksMemory
  refine fun s t h => ⟨?_, step_cfg h⟩
  obtain ⟨n, r, hn, -, rfl⟩ | ⟨i, -, -, hx⟩ := step_faulted_or_exec h
  · exact hn
  · exact Nat.le_trans (le_growLen _ _) (exec_len_le hx)

/-- Settles O37: a fault keeps the memory, and `exec` changes it at the destination alone, which growth does not
move. -/
theorem stepWritesOnlyItsDestination : Obligations.StepWritesOnlyItsDestination := by
  unfold Obligations.StepWritesOnlyItsDestination
  intro s t x hwf h hx
  obtain ⟨n, r, -, -, rfl⟩ | ⟨i, -, hd, hexec⟩ := step_faulted_or_exec h
  · exact absurd rfl hx
  · exact ⟨i, hd, exec_namesDest hexec hwf hx⟩

/-- Settles O38: the running core that comes to be faulted took a fault, at the fetch or in `exec`. -/
theorem faultsArePrecise : Obligations.FaultsArePrecise := by
  unfold Obligations.FaultsArePrecise
  intro s t h ht
  have hrun : s.status = .running := (step_next_cases h).1
  have hf : Faulted s t := by
    obtain hf | ⟨i, -, -, hx⟩ := step_faulted_or_exec h
    · exact hf
    · exact (exec_faulted hx (by simp [hrun]) ht).of_grow
  obtain ⟨n, r, hn, hr, rfl⟩ := hf
  exact ⟨rfl, rfl, rfl, rfl, rfl, rfl, hn, r, rfl, hr⟩

end Sys2Proof.Machine

/-! The statements about `ptr` after an instruction and about the next fetch (10_state.md section 4, 20_memory.md
section 6, 43_jumps.md). -/

namespace Sys2Proof.Machine

/-- The address of each operand word is among those the instruction touches (R75, R78). -/
theorem operandAddr_mem_touched {s : State} {ms : List Mode} {j k : Nat} (hk : k < ms.length) :
    s.ptr.toInt + (j + k : Nat) ∈ touched s j ms := by
  induction ms generalizing j k with
  | nil => cases hk
  | cons m ms ih =>
    cases k with
    | zero => exact List.mem_append_left _ List.mem_cons_self
    | succ k =>
      have hrest := ih (j := j + 1) (Nat.lt_of_succ_lt_succ hk)
      rw [Nat.add_right_comm, Nat.add_assoc] at hrest
      exact List.mem_append_right _ hrest

/-- `ptr` plus the width is exact where the last operand word is at a valid address (R13). -/
theorem toInt_ptr_add_width {i : Instr} {s : State} (hleg : s.cfg.Legal) (hm : i.modes ≠ [])
    (hv : AllValid s.cfg (touched s 1 i.modes)) :
    (s.ptr + BitVec.ofNat 64 i.width).toInt = s.ptr.toInt + i.width := by
  have hlen : 0 < i.modes.length := List.length_pos_iff.2 hm
  have hlast := validAddr_iff.1 (hv _ (operandAddr_mem_touched (j := 1) (k := i.modes.length - 1) (by omega)))
  have hwidth : i.width = i.modes.length + 1 := rfl
  have hwrap : s.ptr + BitVec.ofNat 64 i.width = wrap64 (s.ptr.toInt + i.width) :=
    congrArg State.ptr (advance_eq s i.width).symm
  obtain ⟨-, hlim⟩ := hleg
  rw [hwrap]
  exact toInt_wrap64 (by omega) (by omega)

/-- An instruction that is no halt and no taken jump moves `ptr` by its width (R13). -/
theorem ptrAfter_of_not_jumpTaken {i : Instr} {s : State} (hhlt : i.opcode ≠ 99)
    (hjump : ∀ c g, ¬ Claims.JumpTaken i c g s) : ptrAfter i s = s.ptr + BitVec.ofNat 64 i.width := by
  cases i with
  | jt c g => exact if_neg fun hc => hjump c g (.inl ⟨rfl, hc⟩)
  | jf c g => exact if_neg fun hc => hjump c g (.inr ⟨rfl, hc⟩)
  | hlt => exact absurd rfl hhlt
  | add _ _ _ | mul _ _ _ | inp _ | out _ | lt _ _ _ | eq _ _ _ | arb _ => rfl

theorem modes_ne_nil {i : Instr} (hhlt : i.opcode ≠ 99) : i.modes ≠ [] := by
  cases i with
  | hlt => exact absurd rfl hhlt
  | _ => exact List.cons_ne_nil _ _

/-- A completed instruction that is no halt and no taken jump leaves `ptr` exactly its width further (R13). -/
theorem toInt_completed_ptr {i : Instr} {s : State} (hleg : s.cfg.Legal) (hhlt : i.opcode ≠ 99)
    (hjump : ∀ c g, ¬ Claims.JumpTaken i c g s) (hv : AllValid s.cfg (touched s 1 i.modes)) :
    (completed i s).ptr.toInt = s.ptr.toInt + i.width := by
  rw [completed, ptrAfter_of_not_jumpTaken hhlt hjump]
  exact toInt_ptr_add_width hleg (modes_ne_nil hhlt) hv

/-- Settles O39: of the ends of a step only completion leaves the core running, and a halt does not; growth changes
neither `ptr` nor the operands. -/
theorem ptrAdvancesExactlyByWidth : Obligations.PtrAdvancesExactlyByWidth := by
  unfold Obligations.PtrAdvancesExactlyByWidth
  intro s t i hleg h ht hd hjump
  obtain ⟨n, r, -, -, rfl⟩ | ⟨j, -, hd', hx⟩ := step_faulted_or_exec h
  · cases ht
  obtain rfl : i = j := Except.ok.inj (hd.symm.trans hd')
  obtain ⟨n, r, -, -, rfl⟩ | ⟨-, -, rfl⟩ | ⟨-, -, hv, rfl⟩ := exec_next_cases hx
  · cases ht
  · cases ht
  · have hhlt : i.opcode ≠ 99 := fun hop => by simp [completed, hop] at ht
    exact toInt_completed_ptr (s := s.grow s.ptr.toInt.toNat) hleg hhlt hjump hv

/-- A destination that has an effective address is not immediate. -/
theorem isDest_of_eaOf {s : State} {k : Nat} {m : Mode} {ea : Int} (h : eaOf s k m = some ea) : m.isDest = true := by
  cases m with
  | immediate => cases h
  | position | relative => rfl

/-- An instruction whose destination names an address is well-formed. -/
theorem NamesDest.wellFormed {i : Instr} {s : State} {ea : Int} (h : NamesDest i s ea) : i.wellFormed = true := by
  obtain ⟨-, d, hm, he⟩ | ⟨-, a, b, d, hm, he⟩ := h
  · cases i with
    | inp _ => cases hm; exact isDest_of_eaOf he
    | out _ | arb _ => rfl
    | _ => cases hm
  · cases i with
    | add _ _ _ | mul _ _ _ | lt _ _ _ | eq _ _ _ => cases hm; exact isDest_of_eaOf he
    | _ => cases hm

/-- An instruction with a store is no halt and no taken jump, and if it is `IN` it has an input. -/
theorem storeOf_some_shape {i : Instr} {s : State} {p : Int × Word} (h : Claims.storeOf i s = some p) :
    i.opcode ≠ 99 ∧ (∀ c g, ¬ Claims.JumpTaken i c g s) ∧ (i.opcode = 3 → s.inq ≠ []) := by
  cases i with
  | inp d =>
    obtain ⟨v, hhead, -⟩ := Option.bind_eq_some_iff.1 h
    exact ⟨nofun, nofun, fun _ hq => by simp [hq] at hhead⟩
  | add _ _ _ | mul _ _ _ | lt _ _ _ | eq _ _ _ => exact ⟨nofun, nofun, nofun⟩
  | out _ | jt _ _ | jf _ _ | arb _ | hlt => cases h

/-- Settles O40: the store completes with `ptr` at the stored word, which is below the length, so the next fetch reads
it and grows nothing. -/
theorem storeIsSeenByNextFetch : Obligations.StoreIsSeenByNextFetch := by
  unfold Obligations.StoreIsSeenByNextFetch
  intro i s t v hmem hrun hst hv hx
  obtain ⟨hleg, hwf, -⟩ := hmem
  have hdest := storeOf_namesDest hst
  obtain ⟨hhlt, hjump, hq⟩ := storeOf_some_shape hst
  obtain rfl : completed i s = t := Host.Outcome.next.inj ((exec_completes hdest.wellFormed hq hv).symm.trans hx)
  have hptr := toInt_completed_ptr hleg hhlt hjump hv
  have hrun' : (completed i s).status = .running := (if_neg hhlt).trans hrun
  have hvalid : validAddr (completed i s).cfg (completed i s).ptr.toInt = true := hptr ▸ hv _ hdest.mem_touched
  have hheld : (completed i s).ptr.toInt.toNat < (completed i s).len := hptr ▸ lt_growAll hdest.mem_touched
  have hread : (completed i s).mem.read (completed i s).ptr.toInt.toNat = v := by
    rw [hptr]
    simp [completed, memAfter, hst, Memory.read_write_same hwf]
  refine ⟨fun j hd => step_decode_ok_of_lt hrun' hvalid hheld (hread ▸ hd), fun e hd => ?_⟩
  rw [step_decode_error hrun' hvalid (hread ▸ hd), State.grow_of_lt hheld, hread]

/-- A taken jump is a well-formed instruction of two operands that leaves the target's value in `ptr` (R100, R101). -/
theorem jumpTaken_shape {i : Instr} {c g : Mode} {s : State} (h : Claims.JumpTaken i c g s) :
    i.modes = [c, g] ∧ i.wellFormed = true ∧ i.opcode ≠ 3 ∧ i.opcode ≠ 99 ∧ ptrAfter i s = valueOf s 2 g := by
  obtain ⟨rfl, hc⟩ | ⟨rfl, hc⟩ := h
  · exact ⟨rfl, rfl, nofun, nofun, if_pos hc⟩
  · exact ⟨rfl, rfl, nofun, nofun, if_pos hc⟩

/-- Settles O41: the jump completes with the target's value in `ptr`, where the next fetch faults. -/
theorem jumpToInvalidTargetFaultsAtNextFetch : Obligations.JumpToInvalidTargetFaultsAtNextFetch := by
  unfold Obligations.JumpToInvalidTargetFaultsAtNextFetch
  intro i c g s hrun hj hv hbad
  obtain ⟨hm, hwf, h3, h99, hptr⟩ := jumpTaken_shape hj
  have hptr' : (completed i s).ptr = valueOf s 2 g := hptr
  have hrun' : (completed i s).status = .running := (if_neg h99).trans hrun
  refine ⟨completed i s, exec_completes hwf (fun h => absurd h h3) (hm ▸ hv), hrun', hptr', ?_⟩
  rw [step_fetch_fault hrun' (hptr' ▸ hbad), State.raise, hptr']

end Sys2Proof.Machine

/-! The invariant of the core (10_state.md sections 3, 7 and 10): what it says of each status, and that every step keeps
it. -/

namespace Sys2Proof.Machine

section
variable {s : State}

theorem instrAt_eq_some {i : Instr} : instrAt s = some i ↔
    0 ≤ s.ptr.toInt ∧ s.ptr.toInt < s.len ∧ decode (s.mem.read s.ptr.toInt.toNat) = .ok i := by
  rw [← and_assoc]
  unfold instrAt
  split
  · next hptr =>
    rw [and_iff_right hptr]
    split
    · next j hd => rw [hd, Option.some.injEq, Except.ok.injEq]
    · next e hd => rw [hd]; exact ⟨nofun, nofun⟩
  · next hptr => exact ⟨nofun, fun h => absurd h.1 hptr⟩

theorem isInput_eq_true {o : Option Instr} : isInput o = true ↔ ∃ d, o = some (.inp d) := by
  unfold isInput
  split
  · next d => exact ⟨fun _ => ⟨d, rfl⟩, fun _ => rfl⟩
  · next hne => exact ⟨nofun, fun ⟨d, hd⟩ => absurd hd (hne d)⟩

theorem statusFits_running (h : s.status = .running) : StatusFits s = true ↔ s.frec = none := by
  cases hf : s.frec <;> simp [StatusFits, h, hf]

theorem statusFits_needsInput (h : s.status = .needsInput) :
    StatusFits s = true ↔ s.frec = none ∧ ∃ d, instrAt s = some (.inp d) := by
  cases hf : s.frec <;> simp [StatusFits, h, hf, isInput_eq_true]

theorem statusFits_halted (h : s.status = .halted) :
    StatusFits s = true ↔ s.frec = none ∧ instrAt s = some .hlt := by
  cases hf : s.frec <;> simp [StatusFits, h, hf]

theorem statusFits_fault {r : FaultRecord} (h : s.status = .fault) (hf : s.frec = some r) :
    StatusFits s = true ↔ r.ptr = s.ptr ∧ RecordFits s r = true := by
  simp [StatusFits, h, hf]

theorem memInv_len_le (h : MemInv s) : s.len ≤ s.cfg.addrLimit := by
  obtain ⟨-, -, -, hlen⟩ := h
  exact hlen

/-- An address that is held is valid. -/
theorem memInv_validAddr {a : Int} (h : MemInv s) (hpos : 0 ≤ a) (hlt : a < s.len) : validAddr s.cfg a = true :=
  validAddr_iff.2 ⟨hpos, Int.lt_of_lt_of_le hlt (Int.ofNat_le.2 (memInv_len_le h))⟩

/-- Growth to hold a valid address keeps the invariant of the memory (R32). -/
theorem memInv_grow {a : Int} (h : MemInv s) (hv : validAddr s.cfg a = true) : MemInv (s.grow a.toNat) := by
  obtain ⟨hleg, hwf, hbelow, hlen⟩ := h
  have ha := validAddr_iff.1 hv
  exact ⟨hleg, hwf, Memory.below_mono hbelow (le_growLen _ _), growLen_le hlen ((Int.toNat_lt ha.1).2 ha.2)⟩

/-- A fault whose record fits its cause keeps the invariant, with the growth before it (R136). -/
theorem coreInv_of_fault {n : Nat} {r : FaultRecord} (h : MemInv s) (hn : s.len ≤ n) (hlim : n ≤ s.cfg.addrLimit)
    (hr : r.ptr = s.ptr) (hfit : RecordFits s r = true) :
    CoreInv { s with len := n, status := .fault, frec := some r } := by
  obtain ⟨hleg, hwf, hbelow, -⟩ := h
  exact ⟨⟨hleg, hwf, Memory.below_mono hbelow hn, hlim⟩, (statusFits_fault rfl rfl).2 ⟨hr, hfit⟩⟩

/-- The record of a fetch fault fits (R132). -/
theorem recordFits_fetch (hv : validAddr s.cfg s.ptr.toInt = false) :
    RecordFits s ⟨.invalidAddress, s.ptr, none, some s.ptr.toInt⟩ = true := by
  simp [RecordFits, hv]

/-- The record of a decode fault fits (R131, R133). -/
theorem recordFits_decode {e : DecodeError} (hd : decode (s.mem.read s.ptr.toInt.toNat) = .error e) :
    RecordFits s ⟨causeOf e, s.ptr, some (s.mem.read s.ptr.toInt.toNat), none⟩ = true := by
  cases e <;> simp [RecordFits, causeOf, hd]

/-- The record of an address fault fits, once the instruction has been fetched (R132). -/
theorem recordFits_address {a : Int} (hv : validAddr s.cfg s.ptr.toInt = true) (ha : validAddr s.cfg a = false) :
    RecordFits s ⟨.invalidAddress, s.ptr, s.instrWord, some a⟩ = true := by
  simp [RecordFits, State.instrWord, hv, ha]

/-- Completion keeps the invariant of the memory: the store is below the grown length (R23). -/
theorem memInv_completed {i : Instr} (h : MemInv s) (hv : AllValid s.cfg (touched s 1 i.modes)) :
    MemInv (completed i s) := by
  obtain ⟨hleg, hwf, hbelow, hlen⟩ := h
  have hgrown := Memory.below_mono hbelow (le_growAll s.len (touched s 1 i.modes))
  obtain ⟨hwf', hbelow'⟩ :
      (memAfter i s).wf = true ∧ (memAfter i s).below (growAll s.len (touched s 1 i.modes)) = true := by
    cases hst : Claims.storeOf i s with
    | none => simpa only [memAfter, hst] using ⟨hwf, hgrown⟩
    | some p =>
      have hin := lt_growAll (len := s.len) (storeOf_namesDest hst).mem_touched
      simpa only [memAfter, hst] using ⟨Memory.wf_write hwf, Memory.below_write hgrown hin⟩
  exact ⟨hleg, hwf', hbelow', growAll_le hv hlen⟩

theorem eq_hlt_of_opcode {i : Instr} (h : i.opcode = 99) : i = .hlt := by
  cases i with
  | hlt => rfl
  | _ => cases h

/-- A running core that has fetched `i` meets the invariant after it. -/
theorem exec_keeps_coreInv {i : Instr} {t : State} (hmem : MemInv s) (hrun : s.status = .running)
    (hfrec : s.frec = none) (hat : instrAt s = some i) (h : exec i s = .next t) : CoreInv t := by
  obtain ⟨hpos, hlt, hd⟩ := instrAt_eq_some.1 hat
  cases execEnds_of_exec h with
  | suspended hop _ =>
    obtain ⟨d, rfl⟩ := eq_inp_of_opcode hop
    exact ⟨hmem, (statusFits_needsInput rfl).2 ⟨hfrec, d, hat⟩⟩
  | addressFault pre e hbad =>
    obtain ⟨-, hpre, he⟩ := hbad
    have hlim := growAll_le hpre (memInv_len_le hmem)
    exact coreInv_of_fault hmem (le_growAll _ _) hlim rfl (recordFits_address (memInv_validAddr hmem hpos hlt) he)
  | modeFault hill =>
    obtain ⟨-, -, hwf, -⟩ := decode_eq_ok.1 hd
    rw [hwf] at hill
    cases hill
  | completed _ _ hv =>
    refine ⟨memInv_completed hmem hv, ?_⟩
    by_cases hop : i.opcode = 99
    · obtain rfl := eq_hlt_of_opcode hop
      exact (statusFits_halted rfl).2 ⟨hfrec, hat⟩
    · exact (statusFits_running ((if_neg hop).trans hrun)).2 hfrec

end

/-- Every step keeps the invariant (R23): a fetch fault, a decode fault, and the decoded instruction in the grown
state. -/
theorem step_keeps_coreInv {s t : State} (hinv : CoreInv s) (h : step s = .next t) : CoreInv t := by
  obtain ⟨hmem, hfits⟩ := hinv
  obtain ⟨hrun, hend⟩ := step_next_cases h
  have hfrec : s.frec = none := (statusFits_running hrun).1 hfits
  obtain ⟨hv, rfl⟩ | ⟨e, hv, hd, rfl⟩ | ⟨i, hv, hd, hx⟩ := hend
  · exact coreInv_of_fault hmem (Nat.le_refl _) (memInv_len_le hmem) rfl (recordFits_fetch hv)
  · have hlim := memInv_len_le (memInv_grow hmem hv)
    exact coreInv_of_fault (s := s) hmem (le_growLen _ _) hlim rfl (recordFits_decode hd)
  · obtain ⟨hpos, -⟩ := validAddr_iff.1 hv
    have hheld := lt_growLen s.len s.ptr.toInt.toNat
    have hat : instrAt (s.grow s.ptr.toInt.toNat) = some i :=
      instrAt_eq_some.2 ⟨hpos, by rw [State.grow_len, State.grow_ptr]; omega, hd⟩
    exact exec_keeps_coreInv (memInv_grow hmem hv) hrun hfrec hat hx

/-- Settles O46: the step lemma of the invariant, over the three ends of a step. -/
theorem stepKeepsInvariant : Obligations.StepKeepsInvariant := by
  unfold Obligations.StepKeepsInvariant
  exact fun s t => step_keeps_coreInv

end Sys2Proof.Machine

/-! The statements about reset and the host's operations (46_host_operations.md, 70_reset_and_hazards.md section 1). -/

namespace Sys2Proof.Machine

/-- Settles O42: each field of `State.reset`, and the reset with the empty program. -/
theorem resetValues : Obligations.ResetValues := by
  unfold Obligations.ResetValues
  exact ⟨rfl, rfl, rfl, rfl, rfl, rfl, rfl, fun _ => rfl, rfl⟩

/-- Settles O43: a program that fits is loaded from address 0 on (the laws of `Memory.load`). -/
theorem loadedMachineState : Obligations.LoadedMachineState := by
  unfold Obligations.LoadedMachineState
  refine fun c p q => ⟨fun hlong => by rw [newMachine, if_neg (Nat.not_le.2 hlong)], fun hfit => ?_⟩
  refine ⟨_, newMachine_eq_some.2 ⟨hfit, rfl⟩, fun a => ?_, Memory.wfFrom_load p (Nat.le_refl 0),
    Memory.below_load p (Nat.le_of_eq (Nat.zero_add _)), rfl, rfl, rfl, rfl, rfl, rfl, rfl, rfl⟩
  exact Memory.read_load p 0 a (Nat.zero_le a)

/-- Reset with a program that fits under a legal limit meets the invariant (R150). -/
theorem coreInv_of_newMachine {c : Config} {p q : List Word} {s : State} (hleg : c.Legal)
    (h : newMachine c p q = some s) : CoreInv s := by
  obtain ⟨hfit, rfl⟩ := newMachine_eq_some.1 h
  have hbelow : (Memory.load 0 p).below p.length = true := Memory.below_load p (Nat.le_of_eq (Nat.zero_add _))
  exact ⟨⟨hleg, Memory.wfFrom_load p (Nat.le_refl 0), hbelow, hfit⟩, rfl⟩

/-- Settles O45: `State.reset` is the reset with the empty program under the default limit. -/
theorem resetMeetsInvariant : Obligations.ResetMeetsInvariant := by
  unfold Obligations.ResetMeetsInvariant
  have hleg : Config.default.Legal := by decide
  have hnew : newMachine Config.default [] [] = some State.reset := rfl
  exact coreInv_of_newMachine hleg hnew

/-- `resume` makes a suspended core runnable and changes nothing else (R116). -/
theorem resume_needsInput {s : State} (h : s.status = .needsInput) : resume s = { s with status := .running } := by
  rw [resume, h]

theorem resume_keeps_coreInv {s : State} (h : CoreInv s) : CoreInv (resume s) := by
  by_cases hs : s.status = .needsInput
  · obtain ⟨hmem, hfits⟩ := h
    obtain ⟨hfrec, -⟩ := (statusFits_needsInput hs).1 hfits
    rw [resume_needsInput hs]
    exact ⟨hmem, (statusFits_running rfl).2 hfrec⟩
  · rwa [resume_of_ne_needsInput hs]

/-- Settles O47: the invariant does not read the queues, a resumed core has no record, and reset establishes it. -/
theorem hostOperationsKeepInvariant : Obligations.HostOperationsKeepInvariant := by
  unfold Obligations.HostOperationsKeepInvariant
  refine ⟨fun s v h => ⟨h, ?_, h, resume_keeps_coreInv h⟩, fun c p q s => coreInv_of_newMachine⟩
  rw [takeOutput_state]
  exact h

/-! The loop of `run` (R116, R117). -/

theorem runLoop_zero {s : State} (hrun : s.status = .running) : runLoop 0 s = none := by
  simp only [runLoop, hrun]

theorem runLoop_succ {s t : State} (n : Nat) (hrun : s.status = .running) (h : step s = .next t) :
    runLoop (n + 1) s = runLoop n t := by
  simp only [runLoop, hrun, h]

/-- What a loop that returns keeps, and where it stops (R116). -/
theorem runLoop_stops {n : Nat} {s t : State} (hinv : CoreInv s) (h : runLoop n s = some t) :
    CoreInv t ∧ t.status ≠ .running := by
  induction n generalizing s with
  | zero =>
    by_cases hrun : s.status = .running
    · cases (runLoop_zero hrun).symm.trans h
    · cases (runLoop_of_ne_running 0 hrun).symm.trans h
      exact ⟨hinv, hrun⟩
  | succ n ih =>
    by_cases hrun : s.status = .running
    · obtain ⟨u, hu⟩ := step_total hrun
      exact ih (step_keeps_coreInv hinv hu) ((runLoop_succ n hrun hu).symm.trans h)
    · cases (runLoop_of_ne_running (n + 1) hrun).symm.trans h
      exact ⟨hinv, hrun⟩

/-- `run` returns the state its loop leaves, with its status. -/
theorem run_eq_some {n : Nat} {s : State} {r : Status × State} :
    run n s = some r ↔ ∃ t, runLoop n (resume s) = some t ∧ r = (t.status, t) := by
  rw [run, Option.map_eq_some_iff]
  exact exists_congr fun t => and_congr_right' eq_comm

/-- Settles O48: `resume` and every step of the loop keep the invariant. -/
theorem runKeepsInvariantAndStops : Obligations.RunKeepsInvariantAndStops := by
  unfold Obligations.RunKeepsInvariantAndStops
  intro n s t st hinv h
  obtain ⟨u, hu, hr⟩ := run_eq_some.1 h
  cases hr
  obtain ⟨hinv', hstop⟩ := runLoop_stops (resume_keeps_coreInv hinv) hu
  exact ⟨hinv', rfl, hstop⟩

/-- More fuel changes nothing in a loop that returns (R117). -/
theorem runLoop_add {n : Nat} {s t : State} (k : Nat) (h : runLoop n s = some t) : runLoop (n + k) s = some t := by
  induction n generalizing s with
  | zero =>
    by_cases hrun : s.status = .running
    · cases (runLoop_zero hrun).symm.trans h
    · rwa [runLoop_of_ne_running _ hrun] at h ⊢
  | succ n ih =>
    by_cases hrun : s.status = .running
    · obtain ⟨u, hu⟩ := step_total hrun
      rw [runLoop_succ n hrun hu] at h
      rw [Nat.add_right_comm, runLoop_succ (n + k) hrun hu]
      exact ih h
    · rwa [runLoop_of_ne_running _ hrun] at h ⊢

/-- Settles O55: fuel is used by the loop alone. -/
theorem runFuelIsMonotone : Obligations.RunFuelIsMonotone := by
  unfold Obligations.RunFuelIsMonotone
  intro n k s r h
  obtain ⟨t, ht, hr⟩ := run_eq_some.1 h
  exact run_eq_some.2 ⟨t, runLoop_add k ht, hr⟩

theorem runLoop_selfLoop {s : State} (hrun : s.status = .running) (h : step s = .next s) (n : Nat) :
    runLoop n s = none := by
  induction n with
  | zero => exact runLoop_zero hrun
  | succ n ih => rw [runLoop_succ n hrun h, ih]

/-- Settles O56: `resume` leaves a running core, and the loop comes back to the same state until the fuel ends. -/
theorem selfLoopNeverReturns : Obligations.SelfLoopNeverReturns := by
  unfold Obligations.SelfLoopNeverReturns
  intro s hrun h n
  rw [run, resume_of_ne_needsInput (by simp [hrun]), runLoop_selfLoop hrun h, Option.map_none]

/-- Settles O51: neither status is resumed, and the loop does not start. -/
theorem runOfStoppedCoreDoesNothing : Obligations.RunOfStoppedCoreDoesNothing := by
  unfold Obligations.RunOfStoppedCoreDoesNothing
  rintro n s (h | h)
  · exact run_stopped n (by simp [h]) (by simp [h])
  · exact run_stopped n (by simp [h]) (by simp [h])

/-! A suspended core (R95, R116). -/

/-- A running core runs the instruction that memory holds at `ptr`. -/
theorem step_instrAt {s : State} {i : Instr} (hmem : MemInv s) (hrun : s.status = .running)
    (hat : instrAt s = some i) : step s = exec i s := by
  obtain ⟨hpos, hlt, hd⟩ := instrAt_eq_some.1 hat
  exact step_decode_ok_of_lt hrun (memInv_validAddr hmem hpos hlt) ((Int.toNat_lt hpos).2 hlt) hd

/-- Settles O52: the resumed core runs its input instruction, which suspends again. -/
theorem runIsIdempotentOnNeedsInput : Obligations.RunIsIdempotentOnNeedsInput := by
  unfold Obligations.RunIsIdempotentOnNeedsInput
  intro n s hinv hs hq
  obtain ⟨hmem, hfits⟩ := hinv
  obtain ⟨-, d, hat⟩ := (statusFits_needsInput hs).1 hfits
  have hback : { s with status := .needsInput } = s := by rw [← hs]
  have hstep : step (resume s) = .next s := by
    rw [resume_needsInput hs, step_instrAt (s := { s with status := .running }) hmem rfl hat]
    exact (execInp_nil (s := { s with status := .running }) hq).trans (congrArg _ hback)
  have hloop : runLoop (n + 1) (resume s) = some s := by
    rw [runLoop_succ n (by rw [resume_needsInput hs]) hstep, runLoop_of_ne_running n (by simp [hs])]
  rw [run, hloop, Option.map_some, hs]

/-- Settles O53: the resumed core runs its input instruction, which completes with the pushed value. -/
theorem resumedInputConsumesPushedValue : Obligations.ResumedInputConsumesPushedValue := by
  unfold Obligations.ResumedInputConsumesPushedValue
  intro s v d ea hinv hs hq hat he hv
  have ⟨hmem, _⟩ := hinv
  have ⟨_, hwf, _⟩ := hmem
  have hin : (pushInput v s).inq = [v] := by rw [pushInput, hq]; rfl
  have hstep : step (resume (pushInput v s)) = exec (.inp d) { pushInput v s with status := .running } := by
    rw [resume_needsInput (s := pushInput v s) hs]
    exact step_instrAt (s := { pushInput v s with status := .running }) hmem rfl hat
  exact ⟨_, hstep.trans (execInp_ok hin he hv), Memory.read_write_same hwf _ _, rfl, rfl, rfl⟩

/-! The host's other operations (R119 to R124). -/

/-- Settles O49: a push is the update of the queue alone. -/
theorem pushAppendsAndChangesNothingElse : Obligations.PushAppendsAndChangesNothingElse := by
  unfold Obligations.PushAppendsAndChangesNothingElse
  exact fun s v => ⟨rfl, rfl⟩

theorem takeOutput_nil {s : State} (h : s.outq = []) : takeOutput s = (none, s) := by
  rw [takeOutput, h]

theorem takeOutput_cons {s : State} {v : Word} {rest : List Word} (h : s.outq = v :: rest) :
    takeOutput s = (some v, { s with outq := rest }) := by
  rw [takeOutput, h]

/-- Taking every output gives the sequence in order and empties it (R120). -/
theorem takeMany_outq {s : State} {q : List Word} (h : s.outq = q) :
    takeMany q.length s = (q.map some, { s with outq := [] }) := by
  induction q generalizing s with
  | nil => exact congrArg (fun q => ([], { s with outq := q })) h
  | cons v rest ih =>
    rw [List.length_cons, takeMany, takeOutput_cons h, ih (s := { s with outq := rest }) rfl]
    rfl

/-- Settles O50: induction over the outputs (`takeMany_outq`), and an empty sequence gives none. -/
theorem drainIsRepeatedTake : Obligations.DrainIsRepeatedTake := by
  unfold Obligations.DrainIsRepeatedTake
  exact fun s => ⟨takeMany_outq rfl, takeOutput_nil rfl⟩

/-- Settles O57: the read of a word below the length, and none outside. -/
theorem diagnosticReadRule : Obligations.DiagnosticReadRule := by
  unfold Obligations.DiagnosticReadRule
  refine fun s => ⟨by simp [readMemory], fun a ha => ⟨by simp [readMemory, ha], ?_⟩, fun a ha => ?_⟩
  · rw [readWord, if_pos ⟨Int.natCast_nonneg a, Int.ofNat_lt.2 ha⟩, Int.toNat_natCast]
  · rw [readWord, if_neg (by omega)]

end Sys2Proof.Machine
